-- ==== Sys2Proof/Word.lean ====
section
/-! DEFINITION. The two bit-vector types of the block and the one way a word is put together from two bytes. -/

namespace Sys2Proof

/-- An 8-bit unsigned value 0..255: a RAM entry, a RAM address, an index register, an operand
(spec/00_scope.md R6, R8). Its `+` wraps mod 256, which is R9's `(e) mod 256`. -/
abbrev Byte := BitVec 8

/-- A 16-bit command word or response word (spec/30_encoding.md R70, R71). -/
abbrev Word := BitVec 16

/-- `{hi, lo}`: concatenation with `hi` in the high bits (spec/00_scope.md R8). -/
def catBytes (hi lo : Byte) : Word := hi ++ lo

end Sys2Proof
end

