-- ==== Sys2Proof/Syntax.lean ====
section
/-! DEFINITION. The commands of SPRITZ-CMD v1, the two command errors, and the assembler's lines. -/

namespace Sys2Proof

/-- The four commands, one constructor per row of spec/opcode_table.json (spec/30_encoding.md R73).
DATA is the only operand, and only ABSORB takes it (R74). -/
inductive Instr where
  /-- INIT: start a new session (spec/40_init.md R90). -/
  | init
  /-- ABSORB b: absorb one byte (spec/42_absorb.md R122). -/
  | absorb (b : Byte)
  /-- ABSORB_STOP: the domain-separation marker (spec/42_absorb.md R125). -/
  | absorbStop
  /-- SQUEEZE: produce one keystream byte (spec/43_squeeze.md R140). -/
  | squeeze
  deriving DecidableEq, Repr

/-- The two causes of a CommandError (spec/60_exceptions.md R162). There are no other synchronous exceptions. -/
inductive CommandError where
  /-- OP is not one of the four defined values. -/
  | illegalOpcode
  /-- OP is defined, but RSV is not 0, or DATA is not 0 for a command that takes no operand. -/
  | reservedNonzero
  deriving DecidableEq, Repr

/-- What decode makes of a command word: it selects a command or raises exactly one CommandError
(spec/30_encoding.md R75). -/
inductive Decoded where
  | run (i : Instr)
  | error (e : CommandError)
  deriving DecidableEq, Repr

/-- A byte literal of the assembler (spec/30_encoding.md R78): a number, written in decimal or hex, or a
character literal, which stands for its ASCII code. -/
inductive Literal where
  | number (n : Nat)
  | character (c : Char)
  deriving DecidableEq, Repr

/-- A key or IV field of KEYSETUP: a list of byte literals, or a quoted text
(spec/30_encoding.md R79; spec/95_test_vectors.md P6 writes a key as text). -/
inductive AsmField where
  | bytes (bs : List Literal)
  | text (cs : List Char)
  deriving DecidableEq, Repr

/-- One assembler line: the four mnemonics of spec/30_encoding.md R78 and the four pseudo-instructions of R79. -/
inductive AsmLine where
  | init
  | absorb (b : Literal)
  | absorbStop
  | squeeze
  | absorbs (bs : List Literal)
  | absorbStr (cs : List Char)
  | keySetup (key iv : AsmField)
  | squeezeN (n : Nat)
  deriving DecidableEq, Repr

end Sys2Proof
end

