-- ==== Sys2Proof/WellFormed.lean ====
section
/-! DEFINITION. Which commands and which assembler lines are well formed. -/

namespace Sys2Proof

/-- A command is always well formed: its one operand is a byte, and every value of DATA is legal in ABSORB
(spec/42_absorb.md R122). -/
def Instr.wellFormed : Instr → Bool
  | .init => true
  | .absorb _ => true
  | .absorbStop => true
  | .squeeze => true

/-- A number literal lies in 0..255: a literal outside is an assembler error (spec/30_encoding.md R78).
A character literal has an ASCII code only below 128. -/
def Literal.wellFormed : Literal → Bool
  | .number n => decide (n < 256)
  | .character c => decide (c.toNat < 128)

def AsmField.wellFormed : AsmField → Bool
  | .bytes bs => bs.all Literal.wellFormed
  | .text cs => cs.all (fun c => decide (c.toNat < 128))

/-- A line is well formed when every literal and every character in it is (spec/30_encoding.md R78, R79). -/
def AsmLine.wellFormed : AsmLine → Bool
  | .init => true
  | .absorb b => b.wellFormed
  | .absorbStop => true
  | .squeeze => true
  | .absorbs bs => bs.all Literal.wellFormed
  | .absorbStr cs => cs.all (fun c => decide (c.toNat < 128))
  | .keySetup key iv => key.wellFormed && iv.wellFormed
  | .squeezeN _ => true

end Sys2Proof
end

