-- ==== Sys2Proof/Decode.lean ====
section
/-! DEFINITION. The fields of a command word, the total decoder, the encoder, and the opcode table's rows. -/

namespace Sys2Proof

/-- OP = CMD[15:12] (spec/30_encoding.md R70). -/
def opField (cmd : Word) : BitVec 4 := cmd.extractLsb' 12 4

/-- RSV = CMD[11:8] (spec/30_encoding.md R70). -/
def rsvField (cmd : Word) : BitVec 4 := cmd.extractLsb' 8 4

/-- DATA = CMD[7:0] (spec/30_encoding.md R70). -/
def dataField (cmd : Word) : Byte := cmd.extractLsb' 0 8

/-- Is OP one of the four defined values (spec/30_encoding.md R73)? -/
def opDefined (op : BitVec 4) : Bool := op == 0x1 || op == 0x2 || op == 0x3 || op == 0x4

/-- Does the command with this OP take no operand, so that DATA must be 0x00 (spec/30_encoding.md R74)? -/
def opTakesNoOperand (op : BitVec 4) : Bool := op == 0x1 || op == 0x3 || op == 0x4

/-- Decode of an accepted command word, the checks in the order of spec/30_encoding.md R75. -/
def decode (cmd : Word) : Decoded :=
  let op := opField cmd
  let rsv := rsvField cmd
  let data := dataField cmd
  if !opDefined op then .error .illegalOpcode
  else if rsv ≠ 0 then .error .reservedNonzero
  else if opTakesNoOperand op ∧ data ≠ 0 then .error .reservedNonzero
  else if op = 0x1 then .run .init
  else if op = 0x2 then .run (.absorb data)
  else if op = 0x3 then .run .absorbStop
  else .run .squeeze

/-- A command word from its three fields (spec/30_encoding.md R70). -/
def assembleWord (op rsv : BitVec 4) (data : Byte) : Word := (op ++ rsv) ++ data

/-- The command word of each command (spec/30_encoding.md R73). -/
def encode : Instr → Word
  | .init => assembleWord 0x1 0x0 0x00
  | .absorb b => assembleWord 0x2 0x0 b
  | .absorbStop => assembleWord 0x3 0x0 0x00
  | .squeeze => assembleWord 0x4 0x0 0x00

/-- The mask column of spec/30_encoding.md R73. -/
def tableMask : Instr → Word
  | .init => 0xFFFF
  | .absorb _ => 0xFF00
  | .absorbStop => 0xFFFF
  | .squeeze => 0xFFFF

/-- The match column of spec/30_encoding.md R73. -/
def tableMatch : Instr → Word
  | .init => 0x1000
  | .absorb _ => 0x2000
  | .absorbStop => 0x3000
  | .squeeze => 0x4000

/-- The instruction a decoded word selects, none where a CommandError is raised. -/
def Decoded.instr? : Decoded → Option Instr
  | .run i => some i
  | .error _ => none

/-- The command the decoder reads from a word numbered as the opcode table numbers it. Every command is
exactly one 16-bit word (spec/30_encoding.md R77) that moves in parallel, bit 0 the least significant. -/
def decodeTableWord (nbits w : Nat) : Option Instr :=
  (decode (BitVec.ofNat 16 (w % 2 ^ nbits))).instr?

end Sys2Proof
end

