-- ==== Sys2Proof/Machine/Cipher.lean ====
section
/-! DEFINITION. The cipher state: the permutation RAM and the six index registers. -/

namespace Sys2Proof.Machine

/-- The contents of the permutation RAM (spec/10_state.md R21; spec/20_memory.md R50): the entries that differ
from the reset fill, by rising address. The canonical form is `Memory.wf`. -/
abbrev Memory := List Host.Cell

/-- The cipher state, the source's `CipherState` (spec/10_state.md R20). -/
structure Cipher where
  /-- The permutation RAM, 256 entries of 8 bits (R21). -/
  P : Memory
  /-- The position UPDATE advances by the stride (R23). -/
  i : Byte
  /-- R24. -/
  j : Byte
  /-- R25. -/
  k : Byte
  /-- The last output byte (R26). -/
  z : Byte
  /-- The absorption counter (R27). -/
  a : Byte
  /-- The stride (R28). -/
  w : Byte
  deriving DecidableEq, Repr

end Sys2Proof.Machine
end

