-- ==== Sys2Proof/Config.lean ====
section
/-! DEFINITION. What this hardware fixes, and the values the spec leaves open. -/

namespace Sys2Proof

/-- The three algorithm parameters of spec/00_scope.md R7. -/
structure Params where
  /-- WHIP_INCREMENT_FIRST: whip adds 1 to w before it first tests oddness. -/
  whipIncrementFirst : Bool
  /-- CRUSH_SIGNED_COMPARE: crush compares entries as two's-complement bytes. -/
  crushSignedCompare : Bool
  /-- STOP_INCREMENT_AFTER_SHUFFLE: absorb_stop increments a after the shuffle too. -/
  stopIncrementAfterShuffle : Bool
  deriving DecidableEq, Repr

namespace Config

/-- The column "this hardware" of spec/00_scope.md R7. -/
def thisHardware : Params :=
  { whipIncrementFirst := true, crushSignedCompare := false, stopIncrementAfterShuffle := false }

/-- What a RAM address that nothing has written since reset reads as: reset fills P[x] with x
(spec/70_reset_and_hazards.md R180). -/
def unlisted (x : Byte) : Byte := x

/-- The value of CMD at reset. DESIGN CHOICE (notes/assumptions/1.md): spec/10_state.md R34 leaves it
unspecified and unobservable; the all-zero word is illegal on purpose (spec/30_encoding.md R76). -/
def cmdAtReset : Word := 0x0000

/-- RESET_LATENCY (spec/00_scope.md R7): unspecified, finite. A free value (notes/assumptions/3.md). -/
opaque resetLatency : Nat

/-- LAT_INIT (spec/00_scope.md R7): unspecified, finite, possibly state-dependent. A free value. -/
opaque latInit : Machine.Cipher → Nat

/-- LAT_ABSORB (spec/00_scope.md R7), of the operand and the cipher state. A free value. -/
opaque latAbsorb : Byte → Machine.Cipher → Nat

/-- LAT_STOP (spec/00_scope.md R7). A free value. -/
opaque latStop : Machine.Cipher → Nat

/-- LAT_SQUEEZE (spec/00_scope.md R7). A free value. -/
opaque latSqueeze : Machine.Cipher → Nat

/-- The latency of a malformed word, of the word and the cipher state. The spec names no parameter for it and says it is
finite (spec/70_reset_and_hazards.md R195). A free value. -/
opaque latError : Word → Machine.Cipher → Nat

end Config

end Sys2Proof
end

