-- ==== Sys2Proof/Machine/State.lean ====
section
/-! DEFINITION. The state of the block, the reasons a step can stop, and the state after reset. -/

namespace Sys2Proof.Machine

/-- ctl, the controller state (spec/10_state.md R36). -/
inductive Ctl where
  /-- The reset sequence of spec/70_reset_and_hazards.md R180 is running. -/
  | resetting
  /-- `cmd_ready = 1`: no command is executing and no response is pending. -/
  | idle
  /-- One accepted command is executing. -/
  | busy
  /-- The response of the last command is pending and not yet transferred. -/
  | responding
  deriving DecidableEq, Repr

/-- The block's inputs as sampled at one rising edge of `clk` (spec/70_reset_and_hazards.md R191). -/
structure Pins where
  rst : Bool
  cmdValid : Bool
  cmdData : Word
  rspReady : Bool
  deriving DecidableEq, Repr

/-- The inputs at an edge where the host drives nothing. -/
def Pins.quiet : Pins := { rst := false, cmdValid := false, cmdData := 0x0000, rspReady := false }

/-- The whole state of the block (spec/10_state.md R20), and two fields of the model's own. -/
structure State where
  /-- The cipher state: P, i, j, k, z, a, w (R20 to R28). -/
  cipher : Cipher
  /-- CMD, the command register (R34). -/
  cmd : Word
  /-- RSP, the response register (R35). -/
  rsp : Word
  /-- `rsp_valid`, the pending bit of RSP (R35). -/
  rspValid : Bool
  /-- The controller state (R36). -/
  ctl : Ctl
  /-- THE MODEL'S OWN: how many more edges the running reset sequence or command takes before its last one.
  It is loaded from a latency of `Config`, which is free (notes/assumptions/3.md). -/
  wait : Nat
  /-- THE MODEL'S OWN: what the host drives at the coming rising edges, the next one first; each step takes
  one sample, and past the end the host drives nothing (notes/assumptions/4.md). -/
  pins : List Pins
  deriving DecidableEq, Repr

/-- The reasons a step stops with a fault. There are none: the only exception of this hardware is CommandError, which is a
response and not a stop (spec/60_exceptions.md R160, R161, R162). Safe: nothing is left out by it. -/
inductive Fault where
  deriving DecidableEq, Repr

/-- The reasons a step is refused. -/
inductive Refusal where
  /-- An instruction that has no meaning yet, by its mnemonic. Raised by no arm of exec: every command has its
  meaning. Safe: a refusal proves nothing false. -/
  | notModelled (mnemonic : String)
  deriving DecidableEq, Repr

/-- The initial cipher state: identity permutation, i = j = k = z = a = 0, w = 1 (spec/10_state.md R38). It is one
constant for INIT and for reset (spec/40_init.md R91). -/
def initState : Cipher := { P := [], i := 0, j := 0, k := 0, z := 0, a := 0, w := 1 }

/-- The block right after reset: the reset sequence has ended, so the cipher state is the initial one, no response is
pending, RSP is 0x0000 and ctl is IDLE (spec/70_reset_and_hazards.md R180, R182; spec/10_state.md R38). -/
def State.reset : State :=
  { cipher := initState, cmd := Config.cmdAtReset, rsp := 0x0000, rspValid := false, ctl := .idle, wait := 0,
    pins := [] }

end Sys2Proof.Machine
end

