-- ==== Sys2Proof/Machine/Flags.lean ====
section
/-! DEFINITION. The block has no flags (spec/10_state.md R33); what it has instead is the STATUS of each response. -/

namespace Sys2Proof.Machine

/-- STATUS OK: the command ran (spec/30_encoding.md R72). -/
def statusOk : Byte := 0x00

/-- The STATUS code of a CommandError (spec/30_encoding.md R72; spec/60_exceptions.md R162). -/
def statusOf : CommandError → Byte
  | .illegalOpcode => 0x01
  | .reservedNonzero => 0x02

/-- The response word: STATUS in bits 15:8, DATA in bits 7:0 (spec/30_encoding.md R71). -/
def responseWord (status data : Byte) : Word := catBytes status data

/-- STATUS = RSP[15:8] (spec/10_state.md R35). -/
def rspStatus (rsp : Word) : Byte := rsp.extractLsb' 8 8

/-- DATA = RSP[7:0] (spec/10_state.md R35). -/
def rspData (rsp : Word) : Byte := rsp.extractLsb' 0 8

/-- The output `cmd_ready`: 1 exactly in IDLE (spec/10_state.md R36). -/
def cmdReady (s : State) : Bool := decide (s.ctl = .idle)

end Sys2Proof.Machine
end

