-- ==== Sys2Proof/Machine/Operands.lean ====
section
/-! DEFINITION. The operand forms: a byte operand and its two nibbles. -/

namespace Sys2Proof.Machine

/-- The low nibble b[3:0], absorbed first (spec/42_absorb.md R121). -/
def lowNibble (b : Byte) : BitVec 4 := b.extractLsb' 0 4

/-- The high nibble b[7:4], absorbed second (spec/42_absorb.md R121). -/
def highNibble (b : Byte) : BitVec 4 := b.extractLsb' 4 4

/-- The RAM address 128 + x that a nibble x selects (spec/42_absorb.md R120). -/
def nibbleAddress (x : BitVec 4) : Byte := 128 + x.setWidth 8

end Sys2Proof.Machine
end

