-- ==== Sys2Proof/Machine/Ops.lean ====
section
/-! DEFINITION. The named operations: RAM accesses, the internal micro-operations, responding, raising a CommandError. -/

namespace Sys2Proof.Machine

/-! ### The permutation RAM (spec/20_memory.md) -/

/-- `MemRead(x, 1)`: read one entry (spec/00_scope.md R10; spec/20_memory.md R50). A read has no side effect (R54). -/
def memRead : Memory → Byte → Byte
  | [], x => Config.unlisted x
  | (n, b) :: rest, x => if n = x.toNat then b else memRead rest x

/-- The RAM with address x unlisted. -/
def memErase : Memory → Byte → Memory
  | [], _ => []
  | (n, b) :: rest, x => if n = x.toNat then memErase rest x else (n, b) :: memErase rest x

/-- The RAM with (x, v) listed before the first higher address. -/
def memInsert : Memory → Byte → Byte → Memory
  | [], x, v => [(x.toNat, v)]
  | (n, b) :: rest, x, v =>
    if x.toNat < n then (x.toNat, v) :: (n, b) :: rest else (n, b) :: memInsert rest x v

/-- `MemWrite(x, 1, v)`: write one entry (spec/00_scope.md R10). It keeps the canonical form: writing what an
unlisted address reads as unlists it. -/
def memWrite (m : Memory) (x v : Byte) : Memory :=
  if v = Config.unlisted x then memErase m x else memInsert (memErase m x) x v

/-- Every listed address is at least lo and below 256, addresses rise strictly, no entry reads as if unlisted. -/
def wfFrom : Nat → Memory → Bool
  | _, [] => true
  | lo, (n, b) :: rest =>
    decide (lo ≤ n) && decide (n < 256) && decide (b ≠ Config.unlisted (BitVec.ofNat 8 n)) && wfFrom (n + 1) rest

/-- The canonical form of the RAM's contents. -/
def Memory.wf (m : Memory) : Bool := wfFrom 0 m

/-! ### The internal micro-operations (spec/41_primitives.md) -/

/-- SWAP(x, y): two reads, then two writes (spec/41_primitives.md R100). -/
def swap (c : Cipher) (x y : Byte) : Cipher :=
  let tx := memRead c.P x
  let ty := memRead c.P y
  { c with P := memWrite (memWrite c.P x ty) y tx }

/-- UPDATE (spec/41_primitives.md R101): each step sees the registers as the steps before it left them. -/
def update (c : Cipher) : Cipher :=
  let c1 := { c with i := c.i + c.w }
  let c2 := { c1 with j := c1.k + memRead c1.P (c1.j + memRead c1.P c1.i) }
  let c3 := { c2 with k := c2.i + c2.k + memRead c2.P c2.j }
  swap c3 c3.i c3.j

/-- gcd(w, 256) = 1, by the Euclidean algorithm on naturals (spec/00_scope.md R9). -/
def coprimeTo256 (w : Byte) : Bool := Nat.gcd w.toNat 256 == 1

/-- `repeat w <- w + 1 until gcd(w, 256) = 1`, at most `fuel` times (spec/41_primitives.md R102). -/
def repeatUntilCoprime : Nat → Byte → Byte
  | 0, w => w
  | fuel + 1, w => if coprimeTo256 (w + 1) then w + 1 else repeatUntilCoprime fuel (w + 1)

/-- `while gcd(w, 256) != 1: w <- w + 1`, at most `fuel` times (spec/41_primitives.md R102). -/
def whileNotCoprime : Nat → Byte → Byte
  | 0, w => w
  | fuel + 1, w => if coprimeTo256 w then w else whileNotCoprime fuel (w + 1)

/-- The stride ODD_FIX leaves (spec/41_primitives.md R102). One of any two bytes in a row is odd, so neither loop runs its body
more than twice and the fuel of 256 is never used up. -/
def oddFixStride (g : Params) (w : Byte) : Byte :=
  if g.whipIncrementFirst then repeatUntilCoprime 256 w else whileNotCoprime 256 w

/-- ODD_FIX: the stride adjustment at the end of WHIP (spec/41_primitives.md R102). -/
def oddFix (g : Params) (c : Cipher) : Cipher := { c with w := oddFixStride g c.w }

/-- `for t in 1..r: UPDATE` (spec/41_primitives.md R103). -/
def updates : Nat → Cipher → Cipher
  | 0, c => c
  | r + 1, c => updates r (update c)

/-- WHIP(r): r updates, then ODD_FIX (spec/41_primitives.md R103). -/
def whip (g : Params) (r : Nat) (c : Cipher) : Cipher := oddFix g (updates r c)

/-- The comparison x > y of crush: of unsigned values, or of two's-complement bytes under
CRUSH_SIGNED_COMPARE (spec/41_primitives.md R104). -/
def crushGreater (g : Params) (x y : Byte) : Bool :=
  if g.crushSignedCompare then decide (x.toInt > y.toInt) else decide (x.toNat > y.toNat)

/-- One pair of crush: positions v and 255 - v (spec/41_primitives.md R104). -/
def crushPair (g : Params) (c : Cipher) (v : Byte) : Cipher :=
  if crushGreater g (memRead c.P v) (memRead c.P (255 - v)) then swap c v (255 - v) else c

/-- CRUSH: `for v in 0..127`, in order (spec/41_primitives.md R104). -/
def crush (g : Params) (c : Cipher) : Cipher :=
  (List.range 128).foldl (fun c v => crushPair g c (BitVec.ofNat 8 v)) c

/-- SHUFFLE_WHIP = 512 = 2N (spec/00_scope.md R6). -/
def shuffleWhip : Nat := 512

/-- SHUFFLE (spec/41_primitives.md R105). -/
def shuffle (g : Params) (c : Cipher) : Cipher :=
  let c := whip g shuffleWhip c
  let c := crush g c
  let c := whip g shuffleWhip c
  let c := crush g c
  let c := whip g shuffleWhip c
  { c with a := 0 }

/-! ### The absorb controller (spec/42_absorb.md) -/

/-- HALF = 128 = N/2, the absorb threshold (spec/00_scope.md R6). -/
def half : Byte := 128

/-- The cipher state after SHUFFLE if a = 128, and unchanged otherwise: how ABSORB_NIBBLE begins
(spec/42_absorb.md R120). -/
def shuffleIfFull (g : Params) (c : Cipher) : Cipher := if c.a = half then shuffle g c else c

/-- ABSORB_NIBBLE(x) (spec/42_absorb.md R120). -/
def absorbNibble (g : Params) (c : Cipher) (x : BitVec 4) : Cipher :=
  let c := shuffleIfFull g c
  let c := swap c c.a (nibbleAddress x)
  { c with a := c.a + 1 }

/-- The effect of ABSORB b on the cipher state: the low nibble, then the high one (spec/42_absorb.md R122). -/
def absorbByte (g : Params) (c : Cipher) (b : Byte) : Cipher :=
  absorbNibble g (absorbNibble g c (lowNibble b)) (highNibble b)

/-- The effect of ABSORB_STOP on the cipher state (spec/42_absorb.md R125). -/
def absorbMarker (g : Params) (c : Cipher) : Cipher :=
  if c.a = half then
    let c := shuffle g c
    if g.stopIncrementAfterShuffle then { c with a := c.a + 1 } else c
  else { c with a := c.a + 1 }

/-! ### The output (spec/43_squeeze.md) -/

/-- The output byte P[j + P[i + P[z + k]]] (spec/43_squeeze.md R140). -/
def outputByte (c : Cipher) : Byte :=
  let t1 := memRead c.P (c.z + c.k)
  let t2 := memRead c.P (c.i + t1)
  memRead c.P (c.j + t2)

/-- The cipher state after SHUFFLE if an absorption is pending (a is not 0), and unchanged otherwise: how SQUEEZE
begins (spec/43_squeeze.md R140). -/
def shuffleIfPending (g : Params) (c : Cipher) : Cipher := if c.a ≠ 0 then shuffle g c else c

/-- The effect of SQUEEZE on the cipher state; the byte it answers is the new z (spec/43_squeeze.md R140). -/
def squeezeByte (g : Params) (c : Cipher) : Cipher :=
  let c := shuffleIfPending g c
  let c := update c
  { c with z := outputByte c }

/-! ### Ending a command -/

/-- `respond(status, data)`: it ends the command and places the response word on the response channel
(spec/00_scope.md R11), so `rsp_valid` is 1 and ctl goes from BUSY to RESPONDING (spec/10_state.md R36). -/
def respond (s : State) (status data : Byte) : State :=
  { s with rsp := responseWord status data, rspValid := true, ctl := .responding }

/-- `raise CommandError(code)`: it responds with {code, 0x00} and changes no part of the cipher state
(spec/60_exceptions.md R160). There is no trap entry and nothing to return from (R165): the controller goes back to
IDLE when the response is transferred, like after any other command. -/
def raiseCommandError (e : CommandError) (s : State) : State := respond s (statusOf e) 0x00

end Sys2Proof.Machine
end

