-- ==== Sys2Proof/Machine/Absorb.lean ====
section
/-! DEFINITION. The absorption family: ABSORB and ABSORB_STOP. -/

namespace Sys2Proof.Machine

/-- ABSORB b (spec/42_absorb.md R122); the response is 0x0000. -/
def execAbsorb (b : Byte) (s : State) : Host.Outcome State Fault Refusal :=
  .next (respond { s with cipher := absorbByte Config.thisHardware s.cipher b } statusOk 0x00)

/-- ABSORB_STOP (spec/42_absorb.md R125); the response is 0x0000. -/
def execAbsorbStop (s : State) : Host.Outcome State Fault Refusal :=
  .next (respond { s with cipher := absorbMarker Config.thisHardware s.cipher } statusOk 0x00)

end Sys2Proof.Machine
end

