-- ==== Sys2Proof/Machine/Control.lean ====
section
/-! DEFINITION. The control family: INIT. -/

namespace Sys2Proof.Machine

/-- INIT (spec/40_init.md R90): the initial cipher state, whatever it was; the response is 0x0000. -/
def execInit (s : State) : Host.Outcome State Fault Refusal :=
  .next (respond { s with cipher := initState } statusOk 0x00)

end Sys2Proof.Machine
end

