-- ==== Sys2Proof/Machine/Squeeze.lean ====
section
/-! DEFINITION. The output family: SQUEEZE. -/

namespace Sys2Proof.Machine

/-- SQUEEZE (spec/43_squeeze.md R140): the response is {0x00, z} with the new z. -/
def execSqueeze (s : State) : Host.Outcome State Fault Refusal :=
  let c := squeezeByte Config.thisHardware s.cipher
  .next (respond { s with cipher := c } statusOk c.z)

end Sys2Proof.Machine
end

