-- ==== Sys2Proof/Machine/Dispatch.lean ====
section
/-! DEFINITION. The meaning of every command: one arm per constructor of Instr. -/

namespace Sys2Proof.Machine

/-- The effect of a decoded command (spec/30_encoding.md R75). -/
def exec (i : Instr) (s : State) : Host.Outcome State Fault Refusal :=
  match i with
  | .init => Sys2Proof.Machine.execInit s
  | .absorb b => Sys2Proof.Machine.execAbsorb b s
  | .absorbStop => Sys2Proof.Machine.execAbsorbStop s
  | .squeeze => Sys2Proof.Machine.execSqueeze s

end Sys2Proof.Machine
end

