-- ==== Sys2Proof/Machine/Handshake.lean ====
section
/-! DEFINITION. What one rising edge of clk does in each controller state, and running an accepted command. -/

namespace Sys2Proof.Machine

/-- The inputs sampled at the next rising edge. -/
def nextPins (s : State) : Pins := s.pins.headD Pins.quiet

/-- The state once the next edge's inputs have been sampled. -/
def dropPins (s : State) : State := { s with pins := s.pins.tail }

/-- An edge with `rst = 1` (spec/70_reset_and_hazards.md R180, R181): whatever ran is abandoned and a response already
formed is discarded; the reset sequence starts over. The cipher state is left for the sequence to overwrite. -/
def enterReset (s : State) : State :=
  { s with ctl := .resetting, rspValid := false, rsp := 0x0000, cmd := Config.cmdAtReset, wait := Config.resetLatency }

/-- The end of the reset sequence: P, the index registers and ctl as spec/70_reset_and_hazards.md R180 sets them. -/
def finishReset (s : State) : State := { s with cipher := initState, ctl := .idle }

/-- RESETTING with `rst = 0`: RESET_LATENCY edges pass, then the sequence ends (R180). -/
def resettingEdge (s : State) : State :=
  match s.wait with
  | n + 1 => { s with wait := n }
  | 0 => finishReset s

/-- How long the accepted word takes (spec/00_scope.md R7; spec/70_reset_and_hazards.md R193). -/
def latencyOf (cmd : Word) (c : Cipher) : Nat :=
  match decode cmd with
  | .run .init => Config.latInit c
  | .run (.absorb b) => Config.latAbsorb b c
  | .run .absorbStop => Config.latStop c
  | .run .squeeze => Config.latSqueeze c
  | .error _ => Config.latError cmd c

/-- A command transfer: the block latches `cmd_data` into CMD and goes from IDLE to BUSY
(spec/70_reset_and_hazards.md R191; spec/10_state.md R36). -/
def acceptCommand (cmd : Word) (s : State) : State :=
  { s with cmd := cmd, ctl := .busy, wait := latencyOf cmd s.cipher }

/-- IDLE: a command transfers where `cmd_valid = 1`, since `cmd_ready` is 1 (spec/70_reset_and_hazards.md R191). The block
keeps nothing of an offer that did not transfer (notes/assumptions/14.md). -/
def idleEdge (p : Pins) (s : State) : State :=
  if p.cmdValid then acceptCommand p.cmdData s else s

/-- Run the command word in CMD: decode it, then its command's effect or its CommandError
(spec/30_encoding.md R75; spec/60_exceptions.md R160). -/
def runCommand (s : State) : Host.Outcome State Fault Refusal :=
  match decode s.cmd with
  | .run i => exec i s
  | .error e => .next (raiseCommandError e s)

/-- BUSY: the command's latency passes, then the whole command takes effect at once (spec/00_scope.md R14;
spec/20_memory.md R54). -/
def busyEdge (s : State) : Host.Outcome State Fault Refusal :=
  match s.wait with
  | n + 1 => .next { s with wait := n }
  | 0 => runCommand s

/-- RESPONDING: the response transfers where `rsp_ready = 1`, which clears `rsp_valid` and goes to IDLE; otherwise the
block waits and holds the response (spec/10_state.md R35, R36; spec/70_reset_and_hazards.md R191, R192). -/
def respondingEdge (p : Pins) (s : State) : State :=
  if p.rspReady then { s with rspValid := false, ctl := .idle } else s

/-- One rising edge of `clk` with the inputs p. `rst = 1` wins in every controller state (spec/10_state.md R36), and then the
other inputs have no effect (DESIGN CHOICE, notes/assumptions/13.md). -/
def clockEdge (p : Pins) (s : State) : Host.Outcome State Fault Refusal :=
  if p.rst then .next (enterReset s)
  else match s.ctl with
    | .resetting => .next (resettingEdge s)
    | .idle => .next (idleEdge p s)
    | .busy => busyEdge s
    | .responding => .next (respondingEdge p s)

/-- The state in which the word cmd has been accepted and the very next edge runs it: the edge's inputs are quiet, so no
reset comes before it (notes/assumptions/5.md). -/
def placeCommand (cmd : Word) (s : State) : State :=
  { s with cmd := cmd, ctl := .busy, wait := 0, pins := Pins.quiet :: s.pins }

end Sys2Proof.Machine
end

