-- ==== Sys2Proof/Machine/Step.lean ====
section
/-! DEFINITION. One step of the block: one rising edge of clk. -/

namespace Sys2Proof.Machine

/-- One step samples the inputs of the next rising edge and lets that edge happen. -/
def step (s : State) : Host.Outcome State Fault Refusal :=
  clockEdge (nextPins s) (dropPins s)

/-- The state whose very next step runs the command word w. The block has no program counter and fetches nothing
(spec/10_state.md R32): it runs the word in CMD, so that is where the word is placed. -/
def State.withFetchWord (s : State) (nbits w : Nat) : State :=
  placeCommand (BitVec.ofNat 16 (w % 2 ^ nbits)) s

end Sys2Proof.Machine
end

