-- ==== Sys2Proof/Machine/Assembler.lean ====
section
/-! DEFINITION. The assembler: what a line stands for, and the text of the four mnemonics. -/

namespace Sys2Proof.Machine

/-- The byte of a literal; a character literal stands for its ASCII code (spec/30_encoding.md R78). -/
def literalByte : Literal → Byte
  | .number n => BitVec.ofNat 8 n
  | .character c => BitVec.ofNat 8 c.toNat

/-- `ABSORBS b0, b1, ..., bn-1`: one ABSORB per byte, in order (spec/30_encoding.md R79). -/
def absorbsOf (bs : List Literal) : List Instr := bs.map (fun b => .absorb (literalByte b))

/-- `ABSORBSTR "text"`: ABSORBS of the ASCII codes of text, in order (spec/30_encoding.md R79). -/
def absorbStrOf (cs : List Char) : List Instr := absorbsOf (cs.map .character)

/-- The ABSORBs of a key or IV field (spec/30_encoding.md R79). -/
def fieldOf : AsmField → List Instr
  | .bytes bs => absorbsOf bs
  | .text cs => absorbStrOf cs

/-- The commands a line stands for (spec/30_encoding.md R78, R79). -/
def expandLine : AsmLine → List Instr
  | .init => [.init]
  | .absorb b => [.absorb (literalByte b)]
  | .absorbStop => [.absorbStop]
  | .squeeze => [.squeeze]
  | .absorbs bs => absorbsOf bs
  | .absorbStr cs => absorbStrOf cs
  | .keySetup key iv => fieldOf key ++ [.absorbStop] ++ fieldOf iv
  | .squeezeN n => List.replicate n .squeeze

/-- The command words of a line; none is an assembler error (spec/30_encoding.md R78). -/
def assembleLine (l : AsmLine) : Option (List Word) :=
  if l.wellFormed then some ((expandLine l).map encode) else none

/-- The command words of a program, line after line; none if a line is an assembler error. -/
def assembleLines : List AsmLine → Option (List Word)
  | [] => some []
  | l :: rest =>
    match assembleLine l, assembleLines rest with
    | some ws, some more => some (ws ++ more)
    | _, _ => none

/-! ### The text of a line (spec/30_encoding.md R78, R79; conventions in notes/assumptions/8.md) -/

def isBlank (c : Char) : Bool := c == ' ' || c == '\t'

def skipBlanks : List Char → List Char
  | [] => []
  | c :: rest => if isBlank c then skipBlanks rest else c :: rest

/-- Nothing but blanks and a comment is left; comments start with `;`. -/
def atLineEnd (cs : List Char) : Bool :=
  match skipBlanks cs with
  | [] => true
  | c :: _ => c == ';'

/-- The double quote around a text. -/
def quoteChar : Char := Char.ofNat 34

/-- Does a mnemonic or a number end before this character? -/
def isDelimiter (c : Char) : Bool := isBlank c || c == ';' || c == ','

/-- The characters before the first delimiter, and what follows them. -/
def splitName : List Char → List Char × List Char
  | [] => ([], [])
  | c :: rest =>
    if isDelimiter c then ([], c :: rest)
    else (c :: (splitName rest).1, (splitName rest).2)

/-- The value of a digit in the given base, 10 or 16; hex digits in either case. -/
def digitValue (base : Nat) (c : Char) : Option Nat :=
  let n := c.toNat
  let v := if 48 ≤ n ∧ n ≤ 57 then n - 48
    else if 97 ≤ n ∧ n ≤ 102 then n - 87
    else if 65 ≤ n ∧ n ≤ 70 then n - 55
    else base
  if v < base then some v else none

/-- The number that all of the characters spell in the given base. -/
def digitsValue (base : Nat) : Nat → List Char → Option Nat
  | acc, [] => some acc
  | acc, c :: rest =>
    match digitValue base c with
    | some v => digitsValue base (acc * base + v) rest
    | none => none

/-- An unsigned number, decimal or hex `0x..`, that takes all of the characters. -/
def parseNumber : List Char → Option Nat
  | [] => none
  | '0' :: 'x' :: d :: rest => digitsValue 16 0 (d :: rest)
  | c :: rest => digitsValue 10 0 (c :: rest)

/-- A byte literal at the start of the characters, and what follows it. -/
def parseLiteral : List Char → Option (Literal × List Char)
  | '\'' :: c :: '\'' :: rest => some (.character c, rest)
  | cs => (parseNumber (splitName cs).1).map (fun n => (.number n, (splitName cs).2))

/-- One or more byte literals separated by commas, and what follows them; the fuel bounds how many. -/
def parseLiterals : Nat → List Char → Option (List Literal × List Char)
  | 0, _ => none
  | fuel + 1, cs =>
    match parseLiteral (skipBlanks cs) with
    | none => none
    | some (b, after) =>
      match skipBlanks after with
      | ',' :: rest => (parseLiterals fuel rest).map (fun r => (b :: r.1, r.2))
      | rest => some ([b], rest)

/-- `b0, b1, ..., bn-1`, which may be empty, up to the end of the line or a `;`. -/
def parseBytes (cs : List Char) : Option (List Literal × List Char) :=
  if atLineEnd cs then some ([], skipBlanks cs) else parseLiterals cs.length cs

/-- The characters before the closing quote, and what follows it. -/
def splitQuoted : List Char → Option (List Char × List Char)
  | [] => none
  | c :: rest => if c = quoteChar then some ([], rest) else (splitQuoted rest).map (fun r => (c :: r.1, r.2))

/-- A quoted text at the start of the characters, and what follows it. -/
def parseQuoted : List Char → Option (List Char × List Char)
  | [] => none
  | c :: rest => if c = quoteChar then splitQuoted rest else none

/-- A key or IV field: a quoted text or byte literals. -/
def parseField (cs : List Char) : Option (AsmField × List Char) :=
  match parseQuoted (skipBlanks cs) with
  | some (t, after) => some (.text t, after)
  | none => (parseBytes cs).map (fun r => (.bytes r.1, r.2))

/-- `key ; iv`: the first `;` separates the two fields. -/
def parseKeyIv (cs : List Char) : Option (AsmLine × List Char) :=
  match parseField cs with
  | none => none
  | some (key, after) =>
    match skipBlanks after with
    | ';' :: rest => (parseField rest).map (fun r => (.keySetup key r.1, r.2))
    | _ => none

/-- The line parsed so far, if nothing but a comment follows it. -/
def endLine : Option (AsmLine × List Char) → Option AsmLine
  | none => none
  | some (l, after) => if atLineEnd after then some l else none

/-- The line with the mnemonic name and the characters after it. DESIGN CHOICE (notes/assumptions/8.md): the n of `SQUEEZEN n`,
whose form and range spec/30_encoding.md R79 leaves open, is an unsigned number, decimal or hex, of any size, 0 included. -/
def parseCommand (name rest : List Char) : Option AsmLine :=
  if name = "INIT".toList then endLine (some (.init, rest))
  else if name = "ABSORB".toList then
    endLine ((parseLiteral (skipBlanks rest)).map (fun r => (.absorb r.1, r.2)))
  else if name = "ABSORB_STOP".toList then endLine (some (.absorbStop, rest))
  else if name = "SQUEEZE".toList then endLine (some (.squeeze, rest))
  else if name = "ABSORBS".toList then endLine ((parseBytes rest).map (fun r => (.absorbs r.1, r.2)))
  else if name = "ABSORBSTR".toList then
    endLine ((parseQuoted (skipBlanks rest)).map (fun r => (.absorbStr r.1, r.2)))
  else if name = "KEYSETUP".toList then endLine (parseKeyIv rest)
  else if name = "SQUEEZEN".toList then
    endLine ((parseNumber (splitName (skipBlanks rest)).1).map
      (fun n => (.squeezeN n, (splitName (skipBlanks rest)).2)))
  else none

/-- One line of text: `some none` for a line with no command on it, none for an assembler error. -/
def parseLine (cs : List Char) : Option (Option AsmLine) :=
  if atLineEnd cs then some none
  else (parseCommand (splitName (skipBlanks cs)).1 (splitName (skipBlanks cs)).2).map some

/-- The command words of one line of text; none is an assembler error. -/
def assembleText (cs : List Char) : Option (List Word) :=
  match parseLine cs with
  | some (some l) => assembleLine l
  | some none => some []
  | none => none

end Sys2Proof.Machine
end

