-- ==== Sys2Proof/Machine/Transaction.lean ====
section
/-! DEFINITION. The transaction level of spec/00_scope.md R14, and what a run of steps transfers on the two channels. -/

namespace Sys2Proof.Machine

/-- What a CommandError answers with (spec/60_exceptions.md R160). -/
def errorResponse (e : CommandError) : Word := responseWord (statusOf e) 0x00

/-- One command as one atomic transition of the cipher state with one response word, for any parameters
(spec/00_scope.md R7, R14). -/
def transact (g : Params) (c : Cipher) (cmd : Word) : Cipher × Word :=
  match decode cmd with
  | .run .init => (initState, responseWord statusOk 0x00)
  | .run (.absorb b) => (absorbByte g c b, responseWord statusOk 0x00)
  | .run .absorbStop => (absorbMarker g c, responseWord statusOk 0x00)
  | .run .squeeze => (squeezeByte g c, responseWord statusOk (squeezeByte g c).z)
  | .error e => (c, errorResponse e)

/-- Commands one after another, each to completion (spec/20_memory.md R58), with their responses in order. -/
def transactAll (g : Params) : Cipher → List Word → Cipher × List Word
  | c, [] => (c, [])
  | c, cmd :: rest =>
    let first := transact g c cmd
    let others := transactAll g first.1 rest
    (others.1, first.2 :: others.2)

/-- The command word that transfers at the next edge, if one does: `cmd_valid = 1` and `cmd_ready = 1`
(spec/70_reset_and_hazards.md R191). DESIGN CHOICE (notes/assumptions/13.md): none transfers where `rst = 1`. -/
def acceptedNext (s : State) : Option Word :=
  if !(nextPins s).rst && cmdReady s && (nextPins s).cmdValid then some (nextPins s).cmdData else none

/-- The response word that transfers at the next edge, if one does: `rsp_valid = 1` and `rsp_ready = 1`
(spec/70_reset_and_hazards.md R191). DESIGN CHOICE (notes/assumptions/13.md): none transfers where `rst = 1`. -/
def deliveredNext (s : State) : Option Word :=
  if !(nextPins s).rst && s.rspValid && (nextPins s).rspReady then some s.rsp else none

/-- A run: the state it ends in, and the command and response words that transferred, in order. -/
structure Trace where
  final : State
  accepted : List Word
  delivered : List Word
  deriving DecidableEq, Repr

/-- The run of n steps from s; none if a step stops. -/
def traceOf : Nat → State → Option Trace
  | 0, s => some { final := s, accepted := [], delivered := [] }
  | n + 1, s =>
    match step s with
    | .next t =>
      match traceOf n t with
      | some r => some { final := r.final,
                         accepted := (acceptedNext s).toList ++ r.accepted,
                         delivered := (deliveredNext s).toList ++ r.delivered }
      | none => none
    | .fault _ => none
    | .refused _ => none

/-- `rst` stays 0 at the next n edges. -/
def noResetFor (n : Nat) (s : State) : Bool := (s.pins.take n).all (fun p => !p.rst)

end Sys2Proof.Machine
end

