-- ==== Sys2Proof/Safety.lean ====
section
/-! DEFINITION. What a sound state and a dutiful host are, in the terms the statements use. -/

namespace Sys2Proof.Machine

/-- Every value 0..255 occurs in exactly one entry of P (spec/10_state.md R22). -/
def IsPermutation (m : Memory) : Prop :=
  ∀ v : Byte, ∃ x : Byte, memRead m x = v ∧ ∀ y : Byte, memRead m y = v → y = x

/-- What holds of the cipher state at every command boundary: P is in canonical form and a permutation (spec/10_state.md
R22), w is coprime with 256, that is, odd, and a is at most 128 (R29). -/
structure CipherInv (c : Cipher) : Prop where
  canonical : c.P.wf = true
  permutation : IsPermutation c.P
  strideOdd : c.w.toNat % 2 = 1
  counterBound : c.a.toNat ≤ 128

/-- What holds of the interface: `rsp_valid` is 1 exactly in RESPONDING (spec/10_state.md R36), no status beyond 0x02 is ever
in RSP, and an error status has DATA 0x00 (spec/30_encoding.md R72, R80). -/
structure InterfaceInv (s : State) : Prop where
  pendingIffResponding : s.rspValid = true ↔ s.ctl = .responding
  statusBound : (rspStatus s.rsp).toNat ≤ 2
  errorData : rspStatus s.rsp ≠ statusOk → rspData s.rsp = 0x00

/-- The invariant of the block. -/
structure Inv (s : State) : Prop where
  cipher : CipherInv s.cipher
  interface : InterfaceInv s

/-- P changed by swaps alone: from m, some number of SWAPs lead to m' (spec/10_state.md R22). -/
inductive BySwaps : Memory → Memory → Prop where
  | refl (m : Memory) : BySwaps m m
  | step {m m' : Memory} (x y : Byte) :
      BySwaps m m' → BySwaps m (memWrite (memWrite m' x (memRead m' y)) y (memRead m' x))

/-- Reads with the entries at x and y exchanged. -/
def exchanged (r : Byte → Byte) (x y : Byte) : Byte → Byte :=
  fun q => if q = x then r y else if q = y then r x else r q

/-- How much a command other than INIT and SQUEEZE counts toward the absorb threshold: an ABSORB two nibbles, a stop marker one
(spec/42_absorb.md R124). -/
def absorbCount : Instr → Nat
  | .init => 0
  | .absorb _ => 2
  | .absorbStop => 1
  | .squeeze => 0

/-- Is it an ABSORB or an ABSORB_STOP? -/
def isAbsorption : Instr → Bool
  | .init => false
  | .absorb _ => true
  | .absorbStop => true
  | .squeeze => false

/-- Does this command run SHUFFLE from this cipher state (spec/41_primitives.md R106)? ABSORB does at its low nibble from
a = 128, and at its high nibble from a = 127, where the low one brings a to 128 (spec/42_absorb.md R122). -/
def runsShuffle (i : Instr) (c : Cipher) : Bool :=
  match i with
  | .init => false
  | .absorb _ => decide (c.a = 127) || decide (c.a = 128)
  | .absorbStop => decide (c.a = 128)
  | .squeeze => decide (c.a ≠ 0)

/-- The host's duty on the command channel from one edge to the next: while it offers a word and no transfer has happened, it
holds `cmd_data` stable (spec/70_reset_and_hazards.md R191). DESIGN CHOICE (notes/assumptions/14.md): whether the host may
withdraw the offer, R191 leaves open; withdrawing it is no breach here. -/
def hostHoldsOffer (s : State) (next : Pins) : Bool :=
  !(nextPins s).cmdValid || (acceptedNext s).isSome || !next.cmdValid || next.cmdData == (nextPins s).cmdData

/-- ABSORBs and then nothing but SQUEEZEs: an IV and its keystream (spec/42_absorb.md R126). -/
def ivThenStream : List Instr → Bool
  | [] => true
  | .absorb _ :: rest => ivThenStream rest
  | .squeeze :: rest => rest.all (fun i => decide (i = .squeeze))
  | _ :: _ => false

/-- ABSORBs, the stop marker, then an IV and its keystream: `absorb(key)`, `absorb_stop()`, `absorb(iv)`, in that
order, before any output is requested (spec/42_absorb.md R126). -/
def keyThenIv : List Instr → Bool
  | [] => false
  | .absorb _ :: rest => keyThenIv rest
  | .absorbStop :: rest => ivThenStream rest
  | _ :: _ => false

/-- The commands of a session that meets the host's duties (a) and (d) of spec/70_reset_and_hazards.md R194: it starts with
INIT or, where `fromReset` says that a reset came just before its first command, with that reset. -/
def followsContract (fromReset : Bool) : List Instr → Bool
  | .init :: rest => keyThenIv rest
  | is => fromReset && keyThenIv is

end Sys2Proof.Machine
end

