-- ==== Sys2Proof/Certificates/Slice0/Obligations.lean ====
section
/-! DEFINITION. The statements for the provers, in the order of OBLIGATIONS.json. -/

open Sys2Proof Sys2Proof.Machine

/-! ### Encoding -/

/-- Decode and encode agree, both ways: the word of a well-formed command decodes to it with its operand whole, and no other
word decodes to a command (from the tables of spec/30_encoding.md). -/
def Obligations.DecodeAndEncodeAgree : Prop :=
  (∀ i : Instr, i.wellFormed = true → decode (encode i) = .run i) ∧
  (∀ (w : Word) (i : Instr), decode w = .run i → i.wellFormed = true ∧ w = encode i)

/-- R75: the checks of decode in their order, on the fields as numbers, for every one of the 65536 words. -/
def Obligations.DecodeChecksInOrder : Prop :=
  ∀ w : Word,
    let op := w.toNat / 4096
    let rsv := w.toNat / 256 % 16
    let data := w.toNat % 256
    (op ≠ 1 ∧ op ≠ 2 ∧ op ≠ 3 ∧ op ≠ 4 → decode w = .error .illegalOpcode) ∧
    (1 ≤ op ∧ op ≤ 4 ∧ rsv ≠ 0 → decode w = .error .reservedNonzero) ∧
    ((op = 1 ∨ op = 3 ∨ op = 4) ∧ rsv = 0 ∧ data ≠ 0 → decode w = .error .reservedNonzero) ∧
    (op = 1 ∧ rsv = 0 ∧ data = 0 → decode w = .run .init) ∧
    (op = 2 ∧ rsv = 0 → decode w = .run (.absorb (BitVec.ofNat 8 data))) ∧
    (op = 3 ∧ rsv = 0 ∧ data = 0 → decode w = .run .absorbStop) ∧
    (op = 4 ∧ rsv = 0 ∧ data = 0 → decode w = .run .squeeze)

/-- The match and mask columns of the command table: a word selects a command exactly when its bits under the mask are the
match, and an ABSORB takes its low byte. -/
def Obligations.WordsUnderTheMaskSelectTheCommand : Prop :=
  ∀ w : Word,
    (decode w = .run .init ↔ w &&& 0xFFFF = 0x1000) ∧
    (∀ b : Byte, decode w = .run (.absorb b) ↔ w &&& 0xFF00 = 0x2000 ∧ w.toNat % 256 = b.toNat) ∧
    (decode w = .run .absorbStop ↔ w &&& 0xFFFF = 0x3000) ∧
    (decode w = .run .squeeze ↔ w &&& 0xFFFF = 0x4000)

/-- Words written out from the encodings of the spec, one of each family, decode to what they stand for. -/
def Obligations.SpecWordsDecode : Prop :=
  decode 0b0001000000000000 = .run .init ∧ decode 0b0010000001000001 = .run (.absorb 0x41) ∧
  decode 0b0011000000000000 = .run .absorbStop ∧ decode 0b0100000000000000 = .run .squeeze ∧
  decode 0x1001 = .error .reservedNonzero ∧ decode 0x2100 = .error .reservedNonzero ∧
  decode 0x0000 = .error .illegalOpcode ∧ decode 0xF123 = .error .illegalOpcode ∧
  decodeTableWord 16 0x20FF = some (.absorb 0xFF) ∧ decodeTableWord 16 0x4000 = some .squeeze

/-! ### The step -/

/-- When the word in CMD decodes to a command and no latency is left, the next edge (with `rst` 0) is that command's meaning;
around it the step only takes one sample of the inputs. -/
def Obligations.StepRunsTheDecodedCommand : Prop :=
  ∀ (s : State) (i : Instr), s.ctl = .busy → s.wait = 0 → (nextPins s).rst = false → decode s.cmd = .run i →
    step s = exec i { s with pins := s.pins.tail }

/-- A word placed where the block runs its next command is what the very next step runs. -/
def Obligations.PlacedWordRunsNext : Prop :=
  ∀ (s : State) (i : Instr), i.wellFormed = true →
    step (s.withFetchWord 16 (encode i).toNat) = exec i { s with cmd := encode i, ctl := .busy, wait := 0 }

/-- Every step answers a next state: no state, word or input stops the block. -/
def Obligations.NoStepFaultsOrRefuses : Prop :=
  (∀ s : State, ∃ t, step s = .next t) ∧ (∀ (i : Instr) (s : State), ∃ t, exec i s = .next t)

/-- R160: a word whose decode raises a CommandError changes no part of the cipher state, is answered with {code, 0x00}, leaves
no other record, and the block is IDLE again once the response is transferred; and every running of a word is all or
nothing. -/
def Obligations.CommandErrorIsPrecise : Prop :=
  (∀ (s : State) (e : CommandError), s.ctl = .busy → s.wait = 0 → (nextPins s).rst = false → decode s.cmd = .error e →
    ∃ t, step s = .next t ∧
      t = { s with rsp := (match e with | .illegalOpcode => 0x0100 | .reservedNonzero => 0x0200),
                   rspValid := true, ctl := .responding, pins := s.pins.tail } ∧
      ((nextPins t).rst = false → (nextPins t).rspReady = true →
        ∃ u, step t = .next u ∧ u.ctl = .idle ∧ u.rspValid = false ∧ u.cipher = s.cipher)) ∧
  (∀ s t : State, s.ctl = .busy → s.wait = 0 → (nextPins s).rst = false → step s = .next t →
    (∃ i, decode s.cmd = .run i ∧ step s = exec i { s with pins := s.pins.tail } ∧ rspStatus t.rsp = 0x00) ∨
    ((∃ e, decode s.cmd = .error e) ∧ t.cipher = s.cipher ∧ rspStatus t.rsp ≠ 0x00))

/-- With an illegal OP the answer is ILLEGAL_OPCODE whatever RSV and DATA hold; otherwise RESERVED_NONZERO if any of its
conditions hold; one word never raises two. -/
def Obligations.IllegalOpcodeWins : Prop :=
  ∀ w : Word,
    (decode w = .error .illegalOpcode ↔ ¬ (1 ≤ w.toNat / 4096 ∧ w.toNat / 4096 ≤ 4)) ∧
    (decode w = .error .reservedNonzero ↔ (1 ≤ w.toNat / 4096 ∧ w.toNat / 4096 ≤ 4) ∧
      (w.toNat / 256 % 16 ≠ 0 ∨ (w.toNat / 4096 ≠ 2 ∧ w.toNat % 256 ≠ 0)))

/-- The controller's transitions, all of them, from every state: any state to RESETTING while `rst` is 1; RESETTING to IDLE at
the end of the sequence; IDLE to BUSY on a command transfer, which latches the word; BUSY to RESPONDING, with `rsp_valid`, at
the end of the command; RESPONDING to IDLE on the response transfer, which clears `rsp_valid`; and `cmd_ready` is 1 exactly in
IDLE. (The edges a latency takes are the model's: notes/assumptions/3.md.) -/
def Obligations.ControllerTransitions : Prop :=
  (∀ s : State, cmdReady s = true ↔ s.ctl = .idle) ∧
  ∀ s t : State, step s = .next t →
    ((nextPins s).rst = true → t.ctl = .resetting) ∧
    ((nextPins s).rst = false →
      (s.ctl = .resetting → t.ctl = if s.wait = 0 then .idle else .resetting) ∧
      (s.ctl = .idle → (nextPins s).cmdValid = true → t.ctl = .busy ∧ t.cmd = (nextPins s).cmdData) ∧
      (s.ctl = .idle → (nextPins s).cmdValid = false → t.ctl = .idle ∧ t.cmd = s.cmd) ∧
      (s.ctl = .busy → s.wait = 0 → t.ctl = .responding ∧ t.rspValid = true) ∧
      (s.ctl = .busy → s.wait ≠ 0 → t.ctl = .busy) ∧
      (s.ctl = .responding → (nextPins s).rspReady = true → t.ctl = .idle ∧ t.rspValid = false) ∧
      (s.ctl = .responding → (nextPins s).rspReady = false → t.ctl = .responding ∧ t.rspValid = s.rspValid))

/-- While a response is pending and not taken, the block holds it, and everything else, for any number of edges: it neither
times out nor drops the response. -/
def Obligations.UntakenResponseIsHeld : Prop :=
  ∀ (n : Nat) (s : State), s.ctl = .responding →
    (∀ p ∈ s.pins.take n, p.rst = false ∧ p.rspReady = false) →
    traceOf n s = some { final := { s with pins := s.pins.drop n }, accepted := [], delivered := [] }

/-- A word offered while `cmd_ready` is 0 is not executed and not lost: the edge does not latch it, and if the host still offers
one, with `cmd_data` held stable, it is the word that transfers once the block is IDLE. (That the block forgets a withdrawn
offer is the model's choice: notes/assumptions/14.md.) -/
def Obligations.OfferedWordWaits : Prop :=
  ∀ s t : State, (nextPins s).rst = false → cmdReady s = false → (nextPins s).cmdValid = true → step s = .next t →
    acceptedNext s = none ∧ t.cmd = s.cmd ∧
    (hostHoldsOffer s (nextPins t) = true → (nextPins t).cmdValid = true → t.ctl = .idle → (nextPins t).rst = false →
      acceptedNext t = some (nextPins s).cmdData)

/-- An accepted command produces its response after finitely many edges if `rst` stays 0 at those edges, and the response then
transfers once the host raises `rsp_ready`. (That the number of edges is the same whatever the host drives, and that a malformed
word has a latency of its own, is the model's choice: notes/assumptions/3.md.) -/
def Obligations.EveryCommandIsAnswered : Prop :=
  ∀ s : State, s.ctl = .busy →
    ∃ n, ∀ ps : List Pins, noResetFor n { s with pins := ps } = true →
      ∃ r, traceOf n { s with pins := ps } = some r ∧ r.final.ctl = .responding ∧ r.final.rspValid = true ∧
        ((nextPins r.final).rst = false → (nextPins r.final).rspReady = true →
          deliveredNext r.final = some r.final.rsp ∧ ∃ t, step r.final = .next t ∧ t.ctl = .idle)

/-! ### Reset -/

/-- R38: the cipher state after reset and after INIT, and RSP, `rsp_valid` and ctl: an edge with `rst` 1 leaves RESETTING with
nothing pending, the state after reset is IDLE with nothing pending, INIT leaves RESPONDING with STATUS OK. (CMD is
unspecified and nothing is said of it. State.reset is the block once the reset sequence has ended, where R38 has
"RESETTING, then IDLE" and R182 has IDLE: notes/assumptions/2.md.) -/
def Obligations.ResetStateIsTheSpecs : Prop :=
  (∀ x : Byte, memRead State.reset.cipher.P x = x) ∧
  State.reset.cipher.i = 0 ∧ State.reset.cipher.j = 0 ∧ State.reset.cipher.k = 0 ∧ State.reset.cipher.z = 0 ∧
  State.reset.cipher.a = 0 ∧ State.reset.cipher.w = 1 ∧
  State.reset.rsp = 0x0000 ∧ State.reset.rspValid = false ∧ State.reset.ctl = .idle ∧
  (∀ s : State, (nextPins s).rst = true →
    ∃ t, step s = .next t ∧ t.ctl = .resetting ∧ t.rsp = 0x0000 ∧ t.rspValid = false) ∧
  (∀ s : State, ∃ t, exec .init s = .next t ∧ t.cipher = State.reset.cipher ∧ t.rspValid = true ∧
    rspStatus t.rsp = 0x00 ∧ t.ctl = .responding)

/-- R180, R181: an edge with `rst` 1, in any controller state and whatever ran, leaves RESETTING with `cmd_ready` 0, nothing
pending and RSP 0x0000; and edges with `rst` 0 then lead, after a finite number of them that no rule fixes, to IDLE with the
cipher state of reset. The command in progress is abandoned, its response, if formed, discarded, and none is produced for it
or for the reset: from that edge to IDLE no word transfers on either channel. (For the edge itself see
NothingTransfersAtAResetEdge.) -/
def Obligations.ResetAbandonsWhateverRan : Prop :=
  ∃ n, ∀ s : State, (nextPins s).rst = true →
    ∃ t, step s = .next t ∧ t.ctl = .resetting ∧ cmdReady t = false ∧ t.rspValid = false ∧ t.rsp = 0x0000 ∧
    (noResetFor n t = true →
      ∃ r, traceOf n t = some r ∧ r.accepted = [] ∧ r.delivered = [] ∧
        (∀ x : Byte, memRead r.final.cipher.P x = x) ∧
        r.final.cipher.i = 0 ∧ r.final.cipher.j = 0 ∧ r.final.cipher.k = 0 ∧ r.final.cipher.z = 0 ∧
        r.final.cipher.a = 0 ∧ r.final.cipher.w = 1 ∧ r.final.cipher = State.reset.cipher ∧
        r.final.ctl = .idle ∧ cmdReady r.final = true ∧ r.final.rspValid = false ∧ r.final.rsp = 0x0000)

/-- R91: the cipher state INIT leaves is the one reset leaves; only the interface differs: after INIT a response, 0x0000, is
pending; after reset none is. -/
def Obligations.InitAndResetAgree : Prop :=
  ∀ s : State, ∃ t, exec .init s = .next t ∧ t.cipher = State.reset.cipher ∧
    t.rspValid = true ∧ t.rsp = 0x0000 ∧ State.reset.rspValid = false

/-! ### The permutation RAM -/

/-- A read returns the value of the most recent write to its address, a write leaves every other entry alone, and a write keeps
the canonical form. -/
def Obligations.ReadReturnsTheLastWrite : Prop :=
  ∀ (m : Memory) (x y v : Byte),
    memRead (memWrite m x v) y = (if y = x then v else memRead m y) ∧
    (m.wf = true → Memory.wf (memWrite m x v) = true)

/-- Canonical contents that read alike everywhere are the same data; the reset contents are canonical. -/
def Obligations.EqualReadsAreEqualData : Prop :=
  Memory.wf State.reset.cipher.P = true ∧
  ∀ m m' : Memory, m.wf = true → m'.wf = true → (∀ x : Byte, memRead m x = memRead m' x) → m = m'

/-! ### The micro-operations -/

/-- SWAP exchanges two entries and changes nothing else; with x = y it leaves canonical contents as they are; it keeps P a
permutation; on the identity SWAP(2, 5) gives P[2] = 5 and P[5] = 2. -/
def Obligations.SwapExchangesTwoEntries : Prop :=
  (∀ (c : Cipher) (x y q : Byte), memRead (swap c x y).P q = exchanged (memRead c.P) x y q) ∧
  (∀ (c : Cipher) (x y : Byte), (swap c x y).i = c.i ∧ (swap c x y).j = c.j ∧ (swap c x y).k = c.k ∧
    (swap c x y).z = c.z ∧ (swap c x y).a = c.a ∧ (swap c x y).w = c.w) ∧
  (∀ (c : Cipher) (x : Byte), c.P.wf = true → swap c x x = c) ∧
  (∀ (c : Cipher) (x y : Byte), IsPermutation c.P → IsPermutation (swap c x y).P) ∧
  memRead (swap initState 2 5).P 2 = 5 ∧ memRead (swap initState 2 5).P 5 = 2

/-- R101: UPDATE, on numbers mod 256, in its order, with its corner cases and its example. -/
def Obligations.UpdateIsOneMicroStep : Prop :=
  (∀ c : Cipher,
    let i' := BitVec.ofNat 8 ((c.i.toNat + c.w.toNat) % 256)
    let j' := BitVec.ofNat 8 ((c.k.toNat +
      (memRead c.P (BitVec.ofNat 8 ((c.j.toNat + (memRead c.P i').toNat) % 256))).toNat) % 256)
    let k' := BitVec.ofNat 8 ((i'.toNat + c.k.toNat + (memRead c.P j').toNat) % 256)
    (update c).i = i' ∧ (update c).j = j' ∧ (update c).k = k' ∧
    (∀ q : Byte, memRead (update c).P q = exchanged (memRead c.P) i' j' q) ∧
    (i' = j' → ∀ q : Byte, memRead (update c).P q = memRead c.P q) ∧
    (update c).z = c.z ∧ (update c).a = c.a ∧ (update c).w = c.w) ∧
  update initState = { initState with i := 1, j := 1, k := 2 } ∧
  (update (update initState)).i = 2 ∧ (update (update initState)).j = 5 ∧ (update (update initState)).k = 9 ∧
  memRead (update (update initState)).P 2 = 5 ∧ memRead (update (update initState)).P 5 = 2

/-- R102: ODD_FIX under both readings, and its corner cases. The stride it leaves is always coprime with 256; increment first,
it is the first such value after w; test first, the first from w on; and gcd(w, 256) = 1 exactly when w is odd. -/
def Obligations.OddFixLeavesAnOddStride : Prop :=
  (∀ w : Byte, Nat.gcd w.toNat 256 = 1 ↔ w.toNat % 2 = 1) ∧
  (∀ (g : Params) (c : Cipher), oddFix g c = { c with w := (oddFix g c).w } ∧ Nat.gcd (oddFix g c).w.toNat 256 = 1) ∧
  (∀ (g : Params) (c : Cipher), g.whipIncrementFirst = true →
    (oddFix g c).w = if Nat.gcd (c.w + 1).toNat 256 = 1 then c.w + 1 else c.w + 2) ∧
  (∀ (g : Params) (c : Cipher), g.whipIncrementFirst = true → c.w.toNat % 2 = 1 →
    (oddFix g c).w.toNat = (c.w.toNat + 2) % 256) ∧
  (∀ (g : Params) (c : Cipher), g.whipIncrementFirst = false →
    (oddFix g c).w = if Nat.gcd c.w.toNat 256 = 1 then c.w else c.w + 1) ∧
  Nat.gcd 0 256 = 256

/-- WHIP(r) is exactly r UPDATEs, all with the same stride, then ODD_FIX; WHIP(0) is ODD_FIX alone; WHIP(512) leaves i
where it was for every stride. -/
def Obligations.WhipIsUpdatesThenOddFix : Prop :=
  ∀ (g : Params) (r : Nat) (c : Cipher),
    whip g r c = oddFix g (update^[r] c) ∧ (update^[r] c).w = c.w ∧ whip g 0 c = oddFix g c ∧
    (whip g r c).i.toNat = (c.i.toNat + r * c.w.toNat) % 256 ∧ (whip g 512 c).i = c.i

/-- R104: after CRUSH each pair (v, 255 - v) holds its two entries with the smaller at the lower address, as unsigned or as
two's-complement bytes by the parameter; no index register changes; the identity stays, and the reversed permutation becomes
the identity. -/
def Obligations.CrushOrdersEachPair : Prop :=
  (∀ (g : Params) (c : Cipher) (v : Byte), v.toNat < 128 →
    let x := memRead c.P v
    let y := memRead c.P (255 - v)
    let greater : Prop := if g.crushSignedCompare = true then x.toInt > y.toInt else x.toNat > y.toNat
    (greater → memRead (crush g c).P v = y ∧ memRead (crush g c).P (255 - v) = x) ∧
    (¬ greater → memRead (crush g c).P v = x ∧ memRead (crush g c).P (255 - v) = y)) ∧
  (∀ (g : Params) (c : Cipher), (crush g c).i = c.i ∧ (crush g c).j = c.j ∧ (crush g c).k = c.k ∧
    (crush g c).z = c.z ∧ (crush g c).a = c.a ∧ (crush g c).w = c.w) ∧
  (∀ (g : Params) (c : Cipher), g.crushSignedCompare = false → (∀ x : Byte, memRead c.P x = x) →
    ∀ x : Byte, memRead (crush g c).P x = x) ∧
  (∀ (g : Params) (c : Cipher), g.crushSignedCompare = false → (∀ x : Byte, memRead c.P x = 255 - x) →
    ∀ x : Byte, memRead (crush g c).P x = x)

/-- SHUFFLE is WHIP(512), CRUSH, WHIP(512), CRUSH, WHIP(512), a <- 0: it leaves i and z alone whatever they were, sets a to 0
whatever it was, and takes an odd w to (w + 6) mod 256 where WHIP_INCREMENT_FIRST is true. -/
def Obligations.ShuffleRemixes : Prop :=
  ∀ (g : Params) (c : Cipher),
    shuffle g c = { whip g 512 (crush g (whip g 512 (crush g (whip g 512 c)))) with a := 0 } ∧
    (shuffle g c).i = c.i ∧ (shuffle g c).z = c.z ∧ (shuffle g c).a = 0 ∧ (shuffle g c).w.toNat % 2 = 1 ∧
    (g.whipIncrementFirst = true → c.w.toNat % 2 = 1 → (shuffle g c).w.toNat = (c.w.toNat + 6) % 256)

/-- The stride under every command but INIT: an odd stride grows by 6, once, exactly where `runsShuffle` says that SHUFFLE runs,
and stays everywhere else. (What SHUFFLE does to the rest of the cipher state is said for each command on its own.) -/
def Obligations.StrideGrowsExactlyWhereShuffleRuns : Prop :=
  ∀ (i : Instr) (s : State), i ≠ .init → s.cipher.w.toNat % 2 = 1 →
    ∃ t, exec i s = .next t ∧
      t.cipher.w.toNat = if runsShuffle i s.cipher = true then (s.cipher.w.toNat + 6) % 256 else s.cipher.w.toNat

/-- R120: ABSORB_NIBBLE(x) shuffles first exactly when a = 128, then exchanges the entries at a and 128 + x, then increments a.
From a at most 128 the two addresses are distinct, the swap is at an address of at most 127, and a ends in 1..128. -/
def Obligations.NibbleSwapsAtTheCounter : Prop :=
  (∀ (g : Params) (c : Cipher) (x : BitVec 4), ∃ d : Cipher,
    (c.a = 128 → d = shuffle g c) ∧ (c.a ≠ 128 → d = c) ∧
    (∀ q : Byte, memRead (absorbNibble g c x).P q =
      exchanged (memRead d.P) d.a (BitVec.ofNat 8 (128 + x.toNat)) q) ∧
    (absorbNibble g c x).a.toNat = (d.a.toNat + 1) % 256 ∧
    (absorbNibble g c x).i = d.i ∧ (absorbNibble g c x).j = d.j ∧ (absorbNibble g c x).k = d.k ∧
    (absorbNibble g c x).z = d.z ∧ (absorbNibble g c x).w = d.w ∧
    (c.a.toNat ≤ 128 → d.a.toNat ≤ 127 ∧ d.a ≠ BitVec.ofNat 8 (128 + x.toNat) ∧
      1 ≤ (absorbNibble g c x).a.toNat ∧ (absorbNibble g c x).a.toNat ≤ 128)) ∧
  memRead (absorbNibble Config.thisHardware initState 5).P 0 = 133 ∧
  memRead (absorbNibble Config.thisHardware initState 5).P 133 = 0 ∧
  (absorbNibble Config.thisHardware initState 5).a = 1

/-! ### The commands -/

/-- R90: INIT from any state: identity permutation, i = j = k = z = a = 0, w = 1, response 0x0000; nothing of the previous cipher
state survives; two INITs in a row leave the same cipher state as one; a word with INIT's OP and RSV or DATA not 0 is answered
RESERVED_NONZERO and does none of it, and no word with INIT's OP is ILLEGAL_OPCODE. -/
def Obligations.InitStartsASession : Prop :=
  (∀ s : State, ∃ t, exec .init s = .next t ∧ (∀ x : Byte, memRead t.cipher.P x = x) ∧
    t.cipher.i = 0 ∧ t.cipher.j = 0 ∧ t.cipher.k = 0 ∧ t.cipher.z = 0 ∧ t.cipher.a = 0 ∧ t.cipher.w = 1 ∧
    t.rsp = 0x0000 ∧ t.rspValid = true ∧ t.ctl = .responding ∧
    (∀ c : Cipher, exec .init { s with cipher := c } = .next t) ∧
    (∃ u, exec .init t = .next u ∧ u.cipher = t.cipher)) ∧
  (∀ w : Word, w.toNat / 4096 = 1 →
    decode w ≠ .error .illegalOpcode ∧ (decode w = .run .init ↔ w = 0x1000) ∧
    (w ≠ 0x1000 → ∀ s : State, s.cmd = w →
      runCommand s = .next { s with rsp := 0x0200, rspValid := true, ctl := .responding }))

/-- INIT and the interface: CMD and the model's own fields are left as they were. -/
def Obligations.InitFrame : Prop :=
  ∀ s t : State, exec .init s = .next t → t.cmd = s.cmd ∧ t.wait = s.wait ∧ t.pins = s.pins

/-- R121, R122: ABSORB b absorbs the low nibble b[3:0] and then the high nibble b[7:4], from any state, and answers 0x0000; SHUFFLE
runs at the low nibble exactly from a = 128, at the high one exactly where the low one left a = 128, which is from a = 127, and
never at both; a word with its OP and RSV not 0 is answered RESERVED_NONZERO and does none of it, and every DATA is legal;
its example, ABSORB 0x41 from the initial state; and ABSORB 0x00 exchanges with P[128] at a and at a + 1. -/
def Obligations.AbsorbIsTwoNibbles : Prop :=
  (∀ (s : State) (b : Byte), ∃ t, exec (.absorb b) s = .next t ∧
    (let low := absorbNibble Config.thisHardware s.cipher (BitVec.ofNat 4 (b.toNat % 16))
     t.cipher = absorbNibble Config.thisHardware low (BitVec.ofNat 4 (b.toNat / 16)) ∧
     (s.cipher.a.toNat = 127 ↔ low.a.toNat = 128)) ∧
    t.rsp = 0x0000 ∧ t.rspValid = true ∧ t.ctl = .responding) ∧
  (∀ w : Word, w.toNat / 4096 = 2 →
    (w.toNat / 256 % 16 = 0 → decode w = .run (.absorb (BitVec.ofNat 8 (w.toNat % 256)))) ∧
    (w.toNat / 256 % 16 ≠ 0 → ∀ s : State, s.cmd = w →
      runCommand s = .next { s with rsp := 0x0200, rspValid := true, ctl := .responding })) ∧
  (∀ s : State, s.cipher = initState → ∃ t, exec (.absorb 0x41) s = .next t ∧ t.rsp = 0x0000 ∧ t.cipher.a = 2 ∧
    memRead t.cipher.P 0 = 0x81 ∧ memRead t.cipher.P 129 = 0x00 ∧ memRead t.cipher.P 1 = 0x84 ∧
    memRead t.cipher.P 132 = 0x01) ∧
  (∀ s : State, s.cipher.a.toNat < 127 → ∃ t, exec (.absorb 0x00) s = .next t ∧
    ∀ q : Byte, memRead t.cipher.P q =
      exchanged (exchanged (memRead s.cipher.P) s.cipher.a 128) (s.cipher.a + 1) 128 q)

/-- ABSORB b where no SHUFFLE runs (a is neither 127 nor 128): the low nibble's exchange at a, then the high nibble's at a + 1;
a grows by 2; the other index registers stay; the response is 0x0000. -/
def Obligations.AbsorbWithoutShuffle : Prop :=
  ∀ (s : State) (b : Byte), s.cipher.a.toNat ≠ 127 → s.cipher.a.toNat ≠ 128 →
    ∃ t, exec (.absorb b) s = .next t ∧
      (∀ q : Byte, memRead t.cipher.P q =
        exchanged (exchanged (memRead s.cipher.P) s.cipher.a (BitVec.ofNat 8 (128 + b.toNat % 16)))
          (s.cipher.a + 1) (BitVec.ofNat 8 (128 + b.toNat / 16)) q) ∧
      t.cipher.a = s.cipher.a + 2 ∧ t.cipher.i = s.cipher.i ∧ t.cipher.j = s.cipher.j ∧ t.cipher.k = s.cipher.k ∧
      t.cipher.z = s.cipher.z ∧ t.cipher.w = s.cipher.w ∧
      t.rsp = 0x0000 ∧ t.rspValid = true ∧ t.ctl = .responding

/-- ABSORB b where SHUFFLE runs: at a = 128 before the low nibble, at a = 127 between the two nibbles; the response is
0x0000. -/
def Obligations.AbsorbWithShuffle : Prop :=
  ∀ (s : State) (b : Byte),
    (s.cipher.a.toNat = 128 →
      ∃ t, exec (.absorb b) s = .next t ∧
        (let d := shuffle Config.thisHardware s.cipher
         (∀ q : Byte, memRead t.cipher.P q =
          exchanged (exchanged (memRead d.P) 0 (BitVec.ofNat 8 (128 + b.toNat % 16)))
            1 (BitVec.ofNat 8 (128 + b.toNat / 16)) q) ∧
         t.cipher.a = 2 ∧ t.cipher.i = s.cipher.i ∧ t.cipher.j = d.j ∧ t.cipher.k = d.k ∧ t.cipher.z = s.cipher.z ∧
         t.cipher.w = d.w) ∧
        t.rsp = 0x0000 ∧ t.rspValid = true ∧ t.ctl = .responding) ∧
    (s.cipher.a.toNat = 127 →
      ∃ t, exec (.absorb b) s = .next t ∧
        (let e := { swap s.cipher 127 (BitVec.ofNat 8 (128 + b.toNat % 16)) with a := 128 }
         let d := shuffle Config.thisHardware e
         (∀ q : Byte, memRead t.cipher.P q = exchanged (memRead d.P) 0 (BitVec.ofNat 8 (128 + b.toNat / 16)) q) ∧
         t.cipher.a = 1 ∧ t.cipher.i = s.cipher.i ∧ t.cipher.j = d.j ∧ t.cipher.k = d.k ∧ t.cipher.z = s.cipher.z ∧
         t.cipher.w = d.w) ∧
        t.rsp = 0x0000 ∧ t.rspValid = true ∧ t.ctl = .responding)

/-- What ABSORB b leaves unchanged: i, z, CMD and the model's own fields always; and where no SHUFFLE runs also j, k, w and
every entry of P except the four it stores to, at a, 128 + b[3:0], a + 1 and 128 + b[7:4], the addresses computed by the
meaning's own functions. -/
def Obligations.AbsorbFrame : Prop :=
  ∀ (s t : State) (b : Byte), exec (.absorb b) s = .next t →
    t.cipher.i = s.cipher.i ∧ t.cipher.z = s.cipher.z ∧ t.cmd = s.cmd ∧ t.wait = s.wait ∧ t.pins = s.pins ∧
    (runsShuffle (.absorb b) s.cipher = false →
      t.cipher.j = s.cipher.j ∧ t.cipher.k = s.cipher.k ∧ t.cipher.w = s.cipher.w ∧
      ∀ q : Byte, q ≠ s.cipher.a → q ≠ nibbleAddress (lowNibble b) → q ≠ s.cipher.a + 1 →
        q ≠ nibbleAddress (highNibble b) → memRead t.cipher.P q = memRead s.cipher.P q)

/-- R125: ABSORB_STOP: at a = 128 SHUFFLE runs and a is 0; otherwise only a changes, to (a + 1) mod 256; two stops at a = 5 give
7; under STOP_INCREMENT_AFTER_SHUFFLE a would be 1 after the shuffle; the response is 0x0000; a word with its OP and RSV or DATA
not 0 is answered RESERVED_NONZERO and does none of it. -/
def Obligations.AbsorbStopMarks : Prop :=
  (∀ s : State, ∃ t, exec .absorbStop s = .next t ∧
    (s.cipher.a.toNat = 128 → t.cipher = shuffle Config.thisHardware s.cipher ∧ t.cipher.a = 0) ∧
    (s.cipher.a.toNat ≠ 128 →
      t.cipher = { s.cipher with a := BitVec.ofNat 8 ((s.cipher.a.toNat + 1) % 256) }) ∧
    t.rsp = 0x0000 ∧ t.rspValid = true ∧ t.ctl = .responding) ∧
  (∀ s : State, s.cipher.a.toNat = 5 →
    ∃ t u, exec .absorbStop s = .next t ∧ exec .absorbStop t = .next u ∧ u.cipher = { s.cipher with a := 7 }) ∧
  (∀ (g : Params) (c : Cipher), g.stopIncrementAfterShuffle = true → c.a.toNat = 128 →
    absorbMarker g c = { shuffle g c with a := 1 }) ∧
  (∀ s : State, s.cmd.toNat / 4096 = 3 → s.cmd ≠ 0x3000 →
    runCommand s = .next { s with rsp := 0x0200, rspValid := true, ctl := .responding })

/-- What ABSORB_STOP leaves unchanged: i, z, CMD and the model's own fields always; and below the threshold, that is, unless
a = 128, every index register but a and every entry of P. -/
def Obligations.AbsorbStopFrame : Prop :=
  ∀ s t : State, exec .absorbStop s = .next t →
    t.cipher.i = s.cipher.i ∧ t.cipher.z = s.cipher.z ∧ t.cmd = s.cmd ∧ t.wait = s.wait ∧ t.pins = s.pins ∧
    (runsShuffle .absorbStop s.cipher = false →
      t.cipher.j = s.cipher.j ∧ t.cipher.k = s.cipher.k ∧ t.cipher.w = s.cipher.w ∧
      ∀ q : Byte, memRead t.cipher.P q = memRead s.cipher.P q)

/-- R140: SQUEEZE from any state: SHUFFLE if a is not 0, then UPDATE, then the output chain over the swapped P with the old z and
the new i, j, k; z is the output, the response is {0x00, z}; a is 0 afterwards; with an odd stride the cipher state advances, so
SQUEEZE is not idempotent; its two examples from the initial state; and a word with its OP and RSV or DATA not 0 is answered
RESERVED_NONZERO and does none of it. -/
def Obligations.SqueezeAnswersTheOutputByte : Prop :=
  (∀ s : State, ∃ t, exec .squeeze s = .next t ∧
    (let c := if s.cipher.a ≠ 0 then shuffle Config.thisHardware s.cipher else s.cipher
     let u := update c
     let t1 := memRead u.P (BitVec.ofNat 8 ((s.cipher.z.toNat + u.k.toNat) % 256))
     let t2 := memRead u.P (BitVec.ofNat 8 ((u.i.toNat + t1.toNat) % 256))
     let out := memRead u.P (BitVec.ofNat 8 ((u.j.toNat + t2.toNat) % 256))
     t.cipher = { u with z := out } ∧ t.rsp.toNat = out.toNat) ∧
    t.cipher.a = 0 ∧ (s.cipher.w.toNat % 2 = 1 → t.cipher ≠ s.cipher) ∧
    t.rspValid = true ∧ t.ctl = .responding) ∧
  (∀ s : State, s.cipher = initState → ∃ t u, exec .squeeze s = .next t ∧ exec .squeeze t = .next u ∧
    t.rsp = 0x0004 ∧ t.cipher = { initState with i := 1, j := 1, k := 2, z := 4 } ∧
    u.rsp = 0x0014 ∧ u.cipher.i = 2 ∧ u.cipher.j = 5 ∧ u.cipher.k = 9 ∧ u.cipher.z = 20 ∧
    memRead u.cipher.P 2 = 5 ∧ memRead u.cipher.P 5 = 2) ∧
  (∀ s : State, s.cmd.toNat / 4096 = 4 → s.cmd ≠ 0x4000 →
    runCommand s = .next { s with rsp := 0x0200, rspValid := true, ctl := .responding })

/-- What SQUEEZE leaves unchanged: CMD and the model's own fields always; and where nothing is pending (a = 0) also a, w and
every entry of P except the two that UPDATE stores to, at the new i and the new j, as UPDATE computes them. -/
def Obligations.SqueezeFrame : Prop :=
  ∀ s t : State, exec .squeeze s = .next t →
    t.cmd = s.cmd ∧ t.wait = s.wait ∧ t.pins = s.pins ∧
    (runsShuffle .squeeze s.cipher = false →
      t.cipher.a = s.cipher.a ∧ t.cipher.w = s.cipher.w ∧
      ∀ q : Byte, q ≠ (update s.cipher).i → q ≠ (update s.cipher).j → memRead t.cipher.P q = memRead s.cipher.P q)

/-- R80: the response of every command and of every CommandError: DATA is the new z for SQUEEZE, and 0x00 for every other. -/
def Obligations.ResponseDataPerCommand : Prop :=
  (∀ s : State, ∃ t, exec .init s = .next t ∧ rspStatus t.rsp = 0x00 ∧ rspData t.rsp = 0x00) ∧
  (∀ (s : State) (b : Byte), ∃ t, exec (.absorb b) s = .next t ∧ rspStatus t.rsp = 0x00 ∧ rspData t.rsp = 0x00) ∧
  (∀ s : State, ∃ t, exec .absorbStop s = .next t ∧ rspStatus t.rsp = 0x00 ∧ rspData t.rsp = 0x00) ∧
  (∀ s : State, ∃ t, exec .squeeze s = .next t ∧ rspStatus t.rsp = 0x00 ∧ rspData t.rsp = t.cipher.z) ∧
  (∀ (e : CommandError) (s : State), rspStatus (raiseCommandError e s).rsp ≠ 0x00 ∧
    rspData (raiseCommandError e s).rsp = 0x00)

/-- No peek: with an odd stride every SQUEEZE moves i, by the stride (plus 6 where SHUFFLE runs first), and no answer but a
SQUEEZE's carries a byte: any other word is answered with DATA 0x00. -/
def Obligations.SqueezeAlwaysAdvances : Prop :=
  (∀ s : State, s.cipher.w.toNat % 2 = 1 →
    ∃ t, exec .squeeze s = .next t ∧ t.cipher.i ≠ s.cipher.i ∧
      t.cipher.i.toNat = (s.cipher.i.toNat + s.cipher.w.toNat + if s.cipher.a = 0 then 0 else 6) % 256) ∧
  (∀ s : State, decode s.cmd ≠ .run .squeeze → ∃ t, runCommand s = .next t ∧ rspData t.rsp = 0x00)

/-- R124: from a = 0, any mix of ABSORBs and stop markers whose nibbles and markers total at most 128 brings a to that total with
no SHUFFLE (i, j, k, z and w stay); so 64 ABSORBs bring a to 128, a 65th leaves a = 2 after a SHUFFLE at its low nibble, and a
stop marker or a SQUEEZE there runs SHUFFLE too. -/
def Obligations.AbsorptionBoundary : Prop :=
  (∀ (c : Cipher) (is : List Instr), c.a = 0 → is.all isAbsorption = true → (is.map absorbCount).sum ≤ 128 →
    let d := (transactAll Config.thisHardware c (is.map encode)).1
    d.a.toNat = (is.map absorbCount).sum ∧ d.i = c.i ∧ d.j = c.j ∧ d.k = c.k ∧ d.z = c.z ∧ d.w = c.w) ∧
  (∀ (c : Cipher) (bs : List Byte) (b : Byte), c.a = 0 → bs.length = 64 →
    let d := (transactAll Config.thisHardware c (bs.map (fun b => encode (.absorb b)))).1
    d.a = 128 ∧ d.w = c.w ∧ runsShuffle (.absorb b) d = true ∧ runsShuffle .absorbStop d = true ∧
    runsShuffle .squeeze d = true ∧
    absorbNibble Config.thisHardware d (lowNibble b) =
      absorbNibble Config.thisHardware (shuffle Config.thisHardware d) (lowNibble b) ∧
    (transact Config.thisHardware d (encode (.absorb b))).1.a = 2 ∧
    (transact Config.thisHardware d (encode .absorbStop)).1 = shuffle Config.thisHardware d ∧
    (transact Config.thisHardware d (encode .squeeze)).1.w = (shuffle Config.thisHardware d).w)

/-- Absorbing a byte sequence is the sequence of its ABSORB commands in order, and the empty sequence changes nothing. -/
def Obligations.AbsorbingASequence : Prop :=
  ∀ (g : Params) (c : Cipher) (bs : List Literal),
    transactAll g c ((expandLine (.absorbs bs)).map encode) =
      ((bs.map literalByte).foldl (absorbByte g) c, List.replicate bs.length 0x0000) ∧
    transactAll g c ((expandLine (.absorbs [])).map encode) = (c, [])

/-! ### The assembler -/

/-- Samples of assembler text and their words: at least one line for each of the four mnemonics and the four
pseudo-instructions. (Conventions of the text: notes/assumptions/8.md.) -/
def Obligations.AssembledTextIsTheWords : Prop :=
  assembleText "ABSORB 0x41 ; A".toList = some [0x2041] ∧ assembleText "ABSORB 255".toList = some [0x20FF] ∧
  assembleText "ABSORB 256".toList = none ∧ assembleText "ABSORB 'A'".toList = some [0x2041] ∧
  assembleText "INIT".toList = some [0x1000] ∧ assembleText "ABSORB_STOP".toList = some [0x3000] ∧
  assembleText "SQUEEZE".toList = some [0x4000] ∧
  assembleText "ABSORBS 1, 0x02, 'C'".toList = some [0x2001, 0x2002, 0x2043] ∧ assembleText "ABSORBS".toList = some [] ∧
  assembleText ("ABSORBSTR ".toList ++ [quoteChar] ++ "ABC".toList ++ [quoteChar]) = some [0x2041, 0x2042, 0x2043] ∧
  assembleText "SQUEEZEN 2".toList = some [0x4000, 0x4000] ∧
  assembleText "KEYSETUP 0x41 ; 0x42".toList = some [0x2041, 0x3000, 0x2042]

/-- A well-formed line is assembled, and its words decode to exactly the commands it stands for; a literal outside 0..255 is an
assembler error; and an ill-formed line is not assembled, where what is ill-formed beyond such a literal, a character with no
ASCII code, is the model's choice (notes/assumptions/8.md). -/
def Obligations.AssembledWordsDecodeToTheLine : Prop :=
  (∀ l : AsmLine, l.wellFormed = true →
    ∃ ws, assembleLine l = some ws ∧ ws.map decode = (expandLine l).map Decoded.run) ∧
  (∀ l : AsmLine, l.wellFormed = false → assembleLine l = none) ∧
  (∀ n : Nat, 255 < n → assembleLine (.absorb (.number n)) = none)

/-- KEYSETUP and then SQUEEZEs make a session that meets the key, stop marker and IV order of the contract, where INIT comes
first, whether or not after a reset, and where a reset comes first; and with neither before them they breach it. -/
def Obligations.KeySetupFollowsTheContract : Prop :=
  ∀ (key iv : AsmField) (n : Nat),
    (∀ fromReset : Bool,
      followsContract fromReset (expandLine .init ++ expandLine (.keySetup key iv) ++ expandLine (.squeezeN n)) = true) ∧
    followsContract true (expandLine (.keySetup key iv) ++ expandLine (.squeezeN n)) = true ∧
    followsContract false (expandLine (.keySetup key iv) ++ expandLine (.squeezeN n)) = false

/-! ### The whole machine -/

/-- Every step keeps the invariant: P canonical and a permutation, w odd, a at most 128, `rsp_valid` exactly in RESPONDING, no
status beyond 0x02, and no data with an error status. -/
def Obligations.EveryStepKeepsTheInvariant : Prop :=
  ∀ s t : State, Inv s → step s = .next t → Inv t

/-- The invariant holds at reset. -/
def Obligations.InvariantAtReset : Prop := Inv State.reset

/-- P is written by nothing but SWAP and the initialisation: after any step P is what it was with some entries exchanged, or the
cipher state is the initial one. -/
def Obligations.OnlySwapsAndInitialisationWriteP : Prop :=
  ∀ s t : State, step s = .next t → BySwaps s.cipher.P t.cipher.P ∨ t.cipher = initState

/-- Who writes which register, over every step with `rst` 0 outside the end of a reset sequence: the cipher state changes only
where an accepted word runs; i, j, k, z, a and w each change only under the commands of their rules; CMD changes only by a
command transfer. -/
def Obligations.RegistersAreWrittenByTheirCommandsOnly : Prop :=
  ∀ s t : State, (nextPins s).rst = false → s.ctl ≠ .resetting → step s = .next t →
    (t.cipher ≠ s.cipher → s.ctl = .busy ∧ s.wait = 0 ∧ ∃ i, decode s.cmd = .run i) ∧
    (t.cipher.i ≠ s.cipher.i ∨ t.cipher.z ≠ s.cipher.z → decode s.cmd = .run .init ∨ decode s.cmd = .run .squeeze) ∧
    (t.cipher.j ≠ s.cipher.j ∨ t.cipher.k ≠ s.cipher.k →
      decode s.cmd = .run .init ∨ decode s.cmd = .run .squeeze ∨
      ∃ i, decode s.cmd = .run i ∧ runsShuffle i s.cipher = true) ∧
    (t.cipher.w ≠ s.cipher.w → decode s.cmd = .run .init ∨
      ∃ i, decode s.cmd = .run i ∧ runsShuffle i s.cipher = true) ∧
    (t.cmd ≠ s.cmd → s.ctl = .idle ∧ (nextPins s).cmdValid = true)

/-- The cipher state leaves the block through SQUEEZE's answer alone: in two states that differ in the cipher state only, every
step that does not run a SQUEEZE leaves the same RSP, `rsp_valid`, ctl and CMD. (How long a command takes may differ:
notes/assumptions/3.md.) -/
def Obligations.OnlySqueezeRevealsTheCipher : Prop :=
  ∀ (s t : State) (c : Cipher), ¬ (s.ctl = .busy ∧ s.wait = 0 ∧ decode s.cmd = .run .squeeze) → step s = .next t →
    ∃ u, step { s with cipher := c } = .next u ∧
      u.rsp = t.rsp ∧ u.rspValid = t.rspValid ∧ u.ctl = t.ctl ∧ u.cmd = t.cmd ∧ u.pins = t.pins

/-- The edge-level block refines the transaction level: over any run from IDLE with `rst` 0, whatever the latencies and
whatever the host does with the handshake, if the run ends in IDLE then the cipher state and the responses delivered are those
of the accepted words run one after another, each to completion. -/
def Obligations.RunsRefineTransactions : Prop :=
  ∀ (n : Nat) (s : State) (r : Trace), Inv s → s.ctl = .idle → noResetFor n s = true → traceOf n s = some r →
    r.final.ctl = .idle →
    (r.final.cipher, r.delivered) = transactAll Config.thisHardware s.cipher r.accepted

/-- R142: for fixed commands from INIT the responses are fixed: two runs from any two IDLE states, of any lengths, with any
handshake timing, that accept INIT and then the same words, and end in IDLE, deliver the same responses and end in the same
cipher state. -/
def Obligations.KeystreamIsDetermined : Prop :=
  ∀ (n n' : Nat) (s s' : State) (r r' : Trace) (cmds : List Word),
    Inv s → Inv s' → s.ctl = .idle → s'.ctl = .idle → noResetFor n s = true → noResetFor n' s' = true →
    traceOf n s = some r → traceOf n' s' = some r' → r.final.ctl = .idle → r'.final.ctl = .idle →
    r.accepted = encode .init :: cmds → r'.accepted = encode .init :: cmds →
    r.delivered = r'.delivered ∧ r.final.cipher = r'.final.cipher

/-- One response per command and one command outstanding: over any run from IDLE with `rst` 0, the responses delivered are as
many as the words accepted, or one fewer while the last command is executing or its response is pending. -/
def Obligations.OneResponsePerCommand : Prop :=
  ∀ (n : Nat) (s : State) (r : Trace), Inv s → s.ctl = .idle → noResetFor n s = true → traceOf n s = some r →
    r.accepted.length = r.delivered.length + (if r.final.ctl = .idle then 0 else 1) ∧ r.final.ctl ≠ .resetting

/-- At an edge with `rst` 1 no word transfers on either channel, and the other inputs have no effect: whatever the host drives on
them, the next state is the same. (The model's choice: notes/assumptions/13.md.) -/
def Obligations.NothingTransfersAtAResetEdge : Prop :=
  ∀ s : State, (nextPins s).rst = true →
    acceptedNext s = none ∧ deliveredNext s = none ∧
    ∀ p : Pins, p.rst = true → step { s with pins := p :: s.pins.tail } = step s
end

