-- ==== Sys2Proof/Laws/Memory.lean ====
section
/-! SUPPORT. The laws of the permutation RAM: read after write, canonical form, equal reads give equal contents. -/

namespace Sys2Proof.Machine

theorem byte_eq_of_toNat {x y : Byte} (h : x.toNat = y.toNat) : x = y := BitVec.eq_of_toNat_eq h

/-! ### Reads after writes (spec/20_memory.md R55) -/

theorem memRead_memErase_same (m : Memory) (x : Byte) : memRead (memErase m x) x = Config.unlisted x := by
  induction m with
  | nil => rfl
  | cons e rest ih => obtain ⟨n, b⟩ := e; by_cases h : n = x.toNat <;> simp [memErase, memRead, h, ih]

theorem memRead_memErase_other (m : Memory) {x y : Byte} (h : y ≠ x) : memRead (memErase m x) y = memRead m y := by
  have hne : ¬ x.toNat = y.toNat := fun e => h (byte_eq_of_toNat e.symm)
  induction m with
  | nil => rfl
  | cons e rest ih =>
    obtain ⟨n, b⟩ := e
    by_cases hn : n = x.toNat
    · simp [memErase, memRead, hn, hne, ih]
    · simp [memErase, memRead, hn, ih]

/-- An erased address is not listed. -/
theorem not_listed_memErase (m : Memory) (x : Byte) : ∀ e ∈ memErase m x, e.1 ≠ x.toNat := by
  induction m with
  | nil => simp [memErase]
  | cons e rest ih =>
    obtain ⟨n, b⟩ := e
    by_cases h : n = x.toNat
    · simpa [memErase, h] using ih
    · simpa [memErase, h] using ih

theorem memRead_memInsert_same {m : Memory} {x : Byte} (h : ∀ e ∈ m, e.1 ≠ x.toNat) (v : Byte) :
    memRead (memInsert m x v) x = v := by
  induction m with
  | nil => simp [memInsert, memRead]
  | cons e rest ih =>
    have he := h e (by simp)
    have hr := ih (fun e' he' => h e' (List.mem_cons_of_mem _ he'))
    by_cases hlt : x.toNat < e.1 <;> simp [memInsert, memRead, hlt, he, hr]

theorem memRead_memInsert_other (m : Memory) {x y : Byte} (h : y ≠ x) (v : Byte) :
    memRead (memInsert m x v) y = memRead m y := by
  have hne : ¬ x.toNat = y.toNat := fun e => h (byte_eq_of_toNat e.symm)
  induction m with
  | nil => simp [memInsert, memRead, hne]
  | cons e rest ih => by_cases hlt : x.toNat < e.1 <;> simp [memInsert, memRead, hlt, hne, ih]

/-- A read returns what the last write to its address wrote. -/
@[simp] theorem memRead_memWrite_same (m : Memory) (x v : Byte) : memRead (memWrite m x v) x = v := by
  by_cases h : v = Config.unlisted x
  · simp [memWrite, h, memRead_memErase_same]
  · simp [memWrite, h, memRead_memInsert_same (not_listed_memErase m x)]

/-- A write leaves every other entry alone. -/
theorem memRead_memWrite_other (m : Memory) {x y : Byte} (h : y ≠ x) (v : Byte) :
    memRead (memWrite m x v) y = memRead m y := by
  by_cases hv : v = Config.unlisted x
  · simp [memWrite, hv, memRead_memErase_other m h]
  · simp [memWrite, hv, memRead_memInsert_other _ h, memRead_memErase_other m h]

theorem memRead_memWrite (m : Memory) (x v y : Byte) :
    memRead (memWrite m x v) y = if y = x then v else memRead m y := by
  by_cases h : y = x
  · simp [h]
  · simp [h, memRead_memWrite_other m h]

/-- The RAM as reset fills it is the identity (spec/70_reset_and_hazards.md R180). -/
@[simp] theorem memRead_nil (x : Byte) : memRead [] x = x := rfl

/-! ### The canonical form -/

theorem wfFrom_cons (lo n : Nat) (b : Byte) (rest : Memory) :
    wfFrom lo ((n, b) :: rest) = true ↔
      lo ≤ n ∧ n < 256 ∧ b ≠ Config.unlisted (BitVec.ofNat 8 n) ∧ wfFrom (n + 1) rest = true := by
  simp [wfFrom, and_assoc]

theorem wfFrom_mono {m : Memory} {lo lo' : Nat} (h : lo ≤ lo') (hm : wfFrom lo' m = true) : wfFrom lo m = true := by
  cases m with
  | nil => rfl
  | cons e rest => rw [wfFrom_cons] at hm ⊢; exact ⟨by omega, hm.2⟩

theorem wfFrom_memErase {m : Memory} (x : Byte) : ∀ {lo : Nat}, wfFrom lo m = true → wfFrom lo (memErase m x) = true := by
  induction m with
  | nil => intro lo h; exact h
  | cons e rest ih =>
    obtain ⟨n, b⟩ := e
    intro lo h
    rw [wfFrom_cons] at h
    by_cases hn : n = x.toNat
    · simpa [memErase, hn] using ih (wfFrom_mono (by omega) h.2.2.2)
    · have : memErase ((n, b) :: rest) x = (n, b) :: memErase rest x := by simp [memErase, hn]
      rw [this, wfFrom_cons]
      exact ⟨h.1, h.2.1, h.2.2.1, ih h.2.2.2⟩

theorem wfFrom_memInsert {m : Memory} {x v : Byte} (hv : v ≠ Config.unlisted x) :
    ∀ {lo : Nat}, (∀ e ∈ m, e.1 ≠ x.toNat) → lo ≤ x.toNat → wfFrom lo m = true → wfFrom lo (memInsert m x v) = true := by
  have hx : BitVec.ofNat 8 x.toNat = x := BitVec.ofNat_toNat 8 x ▸ BitVec.setWidth_eq x
  have hlt : x.toNat < 256 := x.isLt
  induction m with
  | nil => intro lo _ hlo _; rw [memInsert, wfFrom_cons, hx]; exact ⟨hlo, hlt, hv, rfl⟩
  | cons e rest ih =>
    obtain ⟨n, b⟩ := e
    intro lo hne hlo h
    rw [wfFrom_cons] at h
    have hnx : n ≠ x.toNat := hne (n, b) (by simp)
    by_cases hcmp : x.toNat < n
    · have : memInsert ((n, b) :: rest) x v = (x.toNat, v) :: (n, b) :: rest := by simp [memInsert, hcmp]
      rw [this, wfFrom_cons, wfFrom_cons, hx]
      exact ⟨hlo, hlt, hv, by omega, h.2⟩
    · have : memInsert ((n, b) :: rest) x v = (n, b) :: memInsert rest x v := by simp [memInsert, hcmp]
      rw [this, wfFrom_cons]
      exact ⟨h.1, h.2.1, h.2.2.1, ih (fun e he => hne e (List.mem_cons_of_mem _ he)) (by omega) h.2.2.2⟩

/-- Every write keeps the canonical form. -/
theorem memWrite_wf {m : Memory} (h : m.wf = true) (x v : Byte) : Memory.wf (memWrite m x v) = true := by
  unfold Memory.wf at h ⊢
  by_cases hv : v = Config.unlisted x
  · simpa [memWrite, hv] using wfFrom_memErase x h
  · simpa [memWrite, hv] using
      wfFrom_memInsert hv (not_listed_memErase m x) (Nat.zero_le _) (wfFrom_memErase x h)

theorem nil_wf : Memory.wf [] = true := rfl

/-- An address below every listed one reads as if nothing had been written. -/
theorem memRead_below {m : Memory} {lo : Nat} (h : wfFrom lo m = true) {x : Byte} (hx : x.toNat < lo) :
    memRead m x = Config.unlisted x := by
  induction m generalizing lo with
  | nil => rfl
  | cons e rest ih =>
    obtain ⟨n, b⟩ := e
    rw [wfFrom_cons] at h
    have : n ≠ x.toNat := by omega
    simp [memRead, this, ih h.2.2.2 (by omega)]

/-- The first listed entry of canonical contents is seen by the read of its address. -/
theorem memRead_head {n : Nat} {b : Byte} (rest : Memory) (hn : n < 256) :
    memRead ((n, b) :: rest) (BitVec.ofNat 8 n) = b := by
  have : n = (BitVec.ofNat 8 n).toNat := by simp [Nat.mod_eq_of_lt hn]
  rw [memRead, if_pos this]

/-- Canonical contents that read alike from an address on are the same list: equal memories are equal data. -/
theorem wfFrom_ext {m m' : Memory} : ∀ {lo : Nat}, wfFrom lo m = true → wfFrom lo m' = true →
    (∀ x, memRead m x = memRead m' x) → m = m' := by
  induction m generalizing m' with
  | nil =>
    intro lo _ h' hr
    cases m' with
    | nil => rfl
    | cons e rest =>
      obtain ⟨n, b⟩ := e
      rw [wfFrom_cons] at h'
      exact absurd ((memRead_head rest h'.2.1).symm.trans (hr _).symm) h'.2.2.1
  | cons e rest ih =>
    obtain ⟨n, b⟩ := e
    intro lo h h' hr
    rw [wfFrom_cons] at h
    cases m' with
    | nil => exact absurd ((memRead_head rest h.2.1).symm.trans (hr _)) h.2.2.1
    | cons e' rest' =>
      obtain ⟨n', b'⟩ := e'
      rw [wfFrom_cons] at h'
      have key : n = n' := by
        rcases Nat.lt_trichotomy n n' with hlt | heq | hgt
        · have h1 := hr (BitVec.ofNat 8 n)
          rw [memRead_head rest h.2.1] at h1
          have h2 : memRead ((n', b') :: rest') (BitVec.ofNat 8 n) = Config.unlisted (BitVec.ofNat 8 n) :=
            memRead_below (lo := n') ((wfFrom_cons _ _ _ _).2 ⟨Nat.le_refl _, h'.2⟩) (by simp; omega)
          exact absurd (h1.trans h2) h.2.2.1
        · exact heq
        · have h1 := hr (BitVec.ofNat 8 n')
          rw [memRead_head rest' h'.2.1] at h1
          have h2 : memRead ((n, b) :: rest) (BitVec.ofNat 8 n') = Config.unlisted (BitVec.ofNat 8 n') :=
            memRead_below (lo := n) ((wfFrom_cons _ _ _ _).2 ⟨Nat.le_refl _, h.2⟩) (by simp; omega)
          exact absurd (h1.symm.trans h2) h'.2.2.1
      subst key
      have hb : b = b' := by
        have := hr (BitVec.ofNat 8 n)
        rwa [memRead_head rest h.2.1, memRead_head rest' h'.2.1] at this
      subst hb
      rw [ih h.2.2.2 h'.2.2.2 (fun x => ?_)]
      by_cases hx : n = x.toNat
      · rw [memRead_below h.2.2.2 (by omega), memRead_below h'.2.2.2 (by omega)]
      · simpa [memRead, hx] using hr x

end Sys2Proof.Machine
end

