-- ==== Sys2Proof/Laws/State.lean ====
section
/-! SUPPORT. One lemma per field per update of State, and of Cipher, true by rfl. -/

namespace Sys2Proof.Machine

/-! ### Ending a command -/

@[simp] theorem respond_cipher (s : State) (st d : Byte) : (respond s st d).cipher = s.cipher := rfl
@[simp] theorem respond_cmd (s : State) (st d : Byte) : (respond s st d).cmd = s.cmd := rfl
@[simp] theorem respond_rsp (s : State) (st d : Byte) : (respond s st d).rsp = responseWord st d := rfl
@[simp] theorem respond_rspValid (s : State) (st d : Byte) : (respond s st d).rspValid = true := rfl
@[simp] theorem respond_ctl (s : State) (st d : Byte) : (respond s st d).ctl = .responding := rfl
@[simp] theorem respond_wait (s : State) (st d : Byte) : (respond s st d).wait = s.wait := rfl
@[simp] theorem respond_pins (s : State) (st d : Byte) : (respond s st d).pins = s.pins := rfl

@[simp] theorem raiseCommandError_cipher (e : CommandError) (s : State) : (raiseCommandError e s).cipher = s.cipher := rfl
@[simp] theorem raiseCommandError_cmd (e : CommandError) (s : State) : (raiseCommandError e s).cmd = s.cmd := rfl
@[simp] theorem raiseCommandError_rsp (e : CommandError) (s : State) : (raiseCommandError e s).rsp = responseWord (statusOf e) 0x00 := rfl
@[simp] theorem raiseCommandError_rspValid (e : CommandError) (s : State) : (raiseCommandError e s).rspValid = true := rfl
@[simp] theorem raiseCommandError_ctl (e : CommandError) (s : State) : (raiseCommandError e s).ctl = .responding := rfl
@[simp] theorem raiseCommandError_wait (e : CommandError) (s : State) : (raiseCommandError e s).wait = s.wait := rfl
@[simp] theorem raiseCommandError_pins (e : CommandError) (s : State) : (raiseCommandError e s).pins = s.pins := rfl

/-! ### The edges -/

@[simp] theorem dropPins_cipher (s : State) : (dropPins s).cipher = s.cipher := rfl
@[simp] theorem dropPins_cmd (s : State) : (dropPins s).cmd = s.cmd := rfl
@[simp] theorem dropPins_rsp (s : State) : (dropPins s).rsp = s.rsp := rfl
@[simp] theorem dropPins_rspValid (s : State) : (dropPins s).rspValid = s.rspValid := rfl
@[simp] theorem dropPins_ctl (s : State) : (dropPins s).ctl = s.ctl := rfl
@[simp] theorem dropPins_wait (s : State) : (dropPins s).wait = s.wait := rfl
@[simp] theorem dropPins_pins (s : State) : (dropPins s).pins = s.pins.tail := rfl

@[simp] theorem enterReset_cipher (s : State) : (enterReset s).cipher = s.cipher := rfl
@[simp] theorem enterReset_cmd (s : State) : (enterReset s).cmd = Config.cmdAtReset := rfl
@[simp] theorem enterReset_rsp (s : State) : (enterReset s).rsp = 0x0000 := rfl
@[simp] theorem enterReset_rspValid (s : State) : (enterReset s).rspValid = false := rfl
@[simp] theorem enterReset_ctl (s : State) : (enterReset s).ctl = .resetting := rfl
@[simp] theorem enterReset_wait (s : State) : (enterReset s).wait = Config.resetLatency := rfl
@[simp] theorem enterReset_pins (s : State) : (enterReset s).pins = s.pins := rfl

@[simp] theorem finishReset_cipher (s : State) : (finishReset s).cipher = initState := rfl
@[simp] theorem finishReset_cmd (s : State) : (finishReset s).cmd = s.cmd := rfl
@[simp] theorem finishReset_rsp (s : State) : (finishReset s).rsp = s.rsp := rfl
@[simp] theorem finishReset_rspValid (s : State) : (finishReset s).rspValid = s.rspValid := rfl
@[simp] theorem finishReset_ctl (s : State) : (finishReset s).ctl = .idle := rfl
@[simp] theorem finishReset_wait (s : State) : (finishReset s).wait = s.wait := rfl
@[simp] theorem finishReset_pins (s : State) : (finishReset s).pins = s.pins := rfl

@[simp] theorem acceptCommand_cipher (v : Word) (s : State) : (acceptCommand v s).cipher = s.cipher := rfl
@[simp] theorem acceptCommand_cmd (v : Word) (s : State) : (acceptCommand v s).cmd = v := rfl
@[simp] theorem acceptCommand_rsp (v : Word) (s : State) : (acceptCommand v s).rsp = s.rsp := rfl
@[simp] theorem acceptCommand_rspValid (v : Word) (s : State) : (acceptCommand v s).rspValid = s.rspValid := rfl
@[simp] theorem acceptCommand_ctl (v : Word) (s : State) : (acceptCommand v s).ctl = .busy := rfl
@[simp] theorem acceptCommand_wait (v : Word) (s : State) : (acceptCommand v s).wait = latencyOf v s.cipher := rfl
@[simp] theorem acceptCommand_pins (v : Word) (s : State) : (acceptCommand v s).pins = s.pins := rfl

@[simp] theorem placeCommand_cipher (v : Word) (s : State) : (placeCommand v s).cipher = s.cipher := rfl
@[simp] theorem placeCommand_cmd (v : Word) (s : State) : (placeCommand v s).cmd = v := rfl
@[simp] theorem placeCommand_rsp (v : Word) (s : State) : (placeCommand v s).rsp = s.rsp := rfl
@[simp] theorem placeCommand_rspValid (v : Word) (s : State) : (placeCommand v s).rspValid = s.rspValid := rfl
@[simp] theorem placeCommand_ctl (v : Word) (s : State) : (placeCommand v s).ctl = .busy := rfl
@[simp] theorem placeCommand_wait (v : Word) (s : State) : (placeCommand v s).wait = 0 := rfl
@[simp] theorem placeCommand_pins (v : Word) (s : State) : (placeCommand v s).pins = Pins.quiet :: s.pins := rfl

/-! ### State after reset -/

@[simp] theorem reset_cipher : (State.reset).cipher = initState := rfl
@[simp] theorem reset_cmd : (State.reset).cmd = Config.cmdAtReset := rfl
@[simp] theorem reset_rsp : (State.reset).rsp = 0x0000 := rfl
@[simp] theorem reset_rspValid : (State.reset).rspValid = false := rfl
@[simp] theorem reset_ctl : (State.reset).ctl = .idle := rfl
@[simp] theorem reset_wait : (State.reset).wait = 0 := rfl
@[simp] theorem reset_pins : (State.reset).pins = [] := rfl

/-! ### The micro-operations on the cipher state -/

@[simp] theorem swap_P (c : Cipher) (x y : Byte) : (swap c x y).P = memWrite (memWrite c.P x (memRead c.P y)) y (memRead c.P x) := rfl
@[simp] theorem swap_i (c : Cipher) (x y : Byte) : (swap c x y).i = c.i := rfl
@[simp] theorem swap_j (c : Cipher) (x y : Byte) : (swap c x y).j = c.j := rfl
@[simp] theorem swap_k (c : Cipher) (x y : Byte) : (swap c x y).k = c.k := rfl
@[simp] theorem swap_z (c : Cipher) (x y : Byte) : (swap c x y).z = c.z := rfl
@[simp] theorem swap_a (c : Cipher) (x y : Byte) : (swap c x y).a = c.a := rfl
@[simp] theorem swap_w (c : Cipher) (x y : Byte) : (swap c x y).w = c.w := rfl

@[simp] theorem oddFix_P (g : Params) (c : Cipher) : (oddFix g c).P = c.P := rfl
@[simp] theorem oddFix_i (g : Params) (c : Cipher) : (oddFix g c).i = c.i := rfl
@[simp] theorem oddFix_j (g : Params) (c : Cipher) : (oddFix g c).j = c.j := rfl
@[simp] theorem oddFix_k (g : Params) (c : Cipher) : (oddFix g c).k = c.k := rfl
@[simp] theorem oddFix_z (g : Params) (c : Cipher) : (oddFix g c).z = c.z := rfl
@[simp] theorem oddFix_a (g : Params) (c : Cipher) : (oddFix g c).a = c.a := rfl
@[simp] theorem oddFix_w (g : Params) (c : Cipher) : (oddFix g c).w = oddFixStride g c.w := rfl

@[simp] theorem initState_P : (initState).P = [] := rfl
@[simp] theorem initState_i : (initState).i = 0 := rfl
@[simp] theorem initState_j : (initState).j = 0 := rfl
@[simp] theorem initState_k : (initState).k = 0 := rfl
@[simp] theorem initState_z : (initState).z = 0 := rfl
@[simp] theorem initState_a : (initState).a = 0 := rfl
@[simp] theorem initState_w : (initState).w = 1 := rfl

/-! ### The inputs of the next edge -/

@[simp] theorem nextPins_placeCommand (v : Word) (s : State) : nextPins (placeCommand v s) = Pins.quiet := rfl

@[simp] theorem dropPins_placeCommand (v : Word) (s : State) :
    dropPins (placeCommand v s) = { s with cmd := v, ctl := .busy, wait := 0 } := rfl

@[simp] theorem quiet_rst : Pins.quiet.rst = false := rfl

/-! ### The response word -/

@[simp] theorem rspStatus_responseWord (st d : Byte) : rspStatus (responseWord st d) = st := by
  unfold rspStatus responseWord catBytes
  ext k hk
  rw [BitVec.getElem_extractLsb', BitVec.getLsbD_append]
  simp [show ¬ (8 + k < 8) by omega, hk]

@[simp] theorem rspData_responseWord (st d : Byte) : rspData (responseWord st d) = d := by
  unfold rspData responseWord catBytes
  ext k hk
  rw [BitVec.getElem_extractLsb', BitVec.getLsbD_append]
  simp [hk]

/-- The response word as a number: STATUS in the high byte. -/
theorem responseWord_toNat (st d : Byte) : (responseWord st d).toNat = st.toNat * 256 + d.toNat := by
  unfold responseWord catBytes
  rw [BitVec.toNat_append, ← Nat.shiftLeft_add_eq_or_of_lt d.isLt, Nat.shiftLeft_eq]

end Sys2Proof.Machine
end

