-- ==== Sys2Proof/Laws/Primitives.lean ====
section
/-! SUPPORT. What each micro-operation does: its registers, what it does to P, and the invariant it keeps. -/

namespace Sys2Proof.Machine

/-! ### SWAP (spec/41_primitives.md R100) -/

/-- Every entry after a SWAP. -/
theorem memRead_swap (c : Cipher) (x y q : Byte) :
    memRead (swap c x y).P q = if q = y then memRead c.P x else if q = x then memRead c.P y else memRead c.P q := by
  simp only [swap_P, memRead_memWrite]

theorem BySwaps.trans {m m' m'' : Memory} (h : BySwaps m m') (h' : BySwaps m' m'') : BySwaps m m'' := by
  induction h' with
  | refl => exact h
  | step x y _ ih => exact .step x y ih

theorem swap_bySwaps (c : Cipher) (x y : Byte) : BySwaps c.P (swap c x y).P := .step x y (.refl _)

/-- Swaps keep the canonical form. -/
theorem BySwaps.wf {m m' : Memory} (h : BySwaps m m') (hm : m.wf = true) : m'.wf = true := by
  induction h with
  | refl => exact hm
  | step x y _ ih => exact memWrite_wf (memWrite_wf ih _ _) _ _

/-- Swaps keep P a permutation: the value at q is found where the swap took it. -/
theorem BySwaps.permutation {m m' : Memory} (h : BySwaps m m') (hm : IsPermutation m) : IsPermutation m' := by
  induction h with
  | refl => exact hm
  | @step m' x y _ ih =>
    intro v
    obtain ⟨q, hq, huniq⟩ := ih v
    refine ⟨if q = x then y else if q = y then x else q, ?_, fun r hr => ?_⟩
    · simp only [memRead_memWrite]
      by_cases h1 : q = x
      · simp [h1, ← hq]
      · by_cases h2 : q = y
        · subst h2
          by_cases h3 : x = q
          · simp [h3, hq]
          · simp [h1, h3, hq]
        · simp [h1, h2, hq]
    · simp only [memRead_memWrite] at hr
      by_cases h1 : r = y
      · rw [if_pos h1] at hr
        simp [h1, huniq x hr]
      · rw [if_neg h1] at hr
        by_cases h2 : r = x
        · rw [if_pos h2] at hr
          have hy := huniq y hr
          rw [← hy]
          by_cases h3 : y = x
          · exact absurd (h2.trans h3.symm) h1
          · simp [h2, h3]
        · rw [if_neg h2] at hr
          have := huniq r hr
          rw [← this]
          simp [h1, h2]

/-! ### UPDATE (spec/41_primitives.md R101) -/

@[simp] theorem update_i (c : Cipher) : (update c).i = c.i + c.w := rfl
@[simp] theorem update_j (c : Cipher) :
    (update c).j = c.k + memRead c.P (c.j + memRead c.P (c.i + c.w)) := rfl
@[simp] theorem update_k (c : Cipher) : (update c).k = c.i + c.w + c.k + memRead c.P (update c).j := rfl
@[simp] theorem update_z (c : Cipher) : (update c).z = c.z := rfl
@[simp] theorem update_a (c : Cipher) : (update c).a = c.a := rfl
@[simp] theorem update_w (c : Cipher) : (update c).w = c.w := rfl

/-- UPDATE exchanges the entries at the new i and the new j. -/
theorem memRead_update (c : Cipher) (q : Byte) :
    memRead (update c).P q =
      if q = (update c).j then memRead c.P (update c).i
      else if q = (update c).i then memRead c.P (update c).j else memRead c.P q :=
  memRead_swap _ _ _ q

theorem update_bySwaps (c : Cipher) : BySwaps c.P (update c).P := .step _ _ (.refl _)

/-! ### ODD_FIX (spec/41_primitives.md R102) -/

/-- w is coprime with 256 exactly when it is odd. -/
theorem coprimeTo256_iff (w : Byte) : coprimeTo256 w = true ↔ w.toNat % 2 = 1 := by
  revert w; decide +kernel

theorem oddFixStride_odd (g : Params) (w : Byte) : (oddFixStride g w).toNat % 2 = 1 := by
  obtain ⟨f, s, t⟩ := g
  cases f <;> revert w <;> cases s <;> cases t <;> decide +kernel

/-- With WHIP_INCREMENT_FIRST the loop runs twice from an odd stride. -/
theorem oddFixStride_first {g : Params} (hg : g.whipIncrementFirst = true) {w : Byte} (hw : w.toNat % 2 = 1) :
    oddFixStride g w = w + 2 := by
  have : ∀ v : Byte, v.toNat % 2 = 1 → repeatUntilCoprime 256 v = v + 2 := by decide +kernel
  simp [oddFixStride, hg, this w hw]

/-- With the test first an odd stride stays. -/
theorem oddFixStride_test {g : Params} (hg : g.whipIncrementFirst = false) {w : Byte} (hw : w.toNat % 2 = 1) :
    oddFixStride g w = w := by
  have : ∀ v : Byte, v.toNat % 2 = 1 → whileNotCoprime 256 v = v := by decide +kernel
  simp [oddFixStride, hg, this w hw]

/-! ### WHIP (spec/41_primitives.md R103) -/

theorem updates_z (r : Nat) (c : Cipher) : (updates r c).z = c.z := by
  induction r generalizing c with
  | zero => rfl
  | succ r ih => rw [updates, ih, update_z]

theorem updates_a (r : Nat) (c : Cipher) : (updates r c).a = c.a := by
  induction r generalizing c with
  | zero => rfl
  | succ r ih => rw [updates, ih, update_a]

theorem updates_w (r : Nat) (c : Cipher) : (updates r c).w = c.w := by
  induction r generalizing c with
  | zero => rfl
  | succ r ih => rw [updates, ih, update_w]

/-- r updates advance i by r strides. -/
theorem updates_i (r : Nat) (c : Cipher) : (updates r c).i = c.i + BitVec.ofNat 8 r * c.w := by
  induction r generalizing c with
  | zero => simp [updates]
  | succ r ih =>
    rw [updates, ih, update_i, update_w, BitVec.ofNat_add]
    have : (BitVec.ofNat 8 r + BitVec.ofNat 8 1) * c.w = BitVec.ofNat 8 r * c.w + c.w := by
      rw [BitVec.add_mul]; simp
    rw [this, BitVec.add_assoc, BitVec.add_comm c.w]

theorem updates_bySwaps (r : Nat) (c : Cipher) : BySwaps c.P (updates r c).P := by
  induction r generalizing c with
  | zero => exact .refl _
  | succ r ih => exact (update_bySwaps c).trans (ih (update c))

@[simp] theorem whip_z (g : Params) (r : Nat) (c : Cipher) : (whip g r c).z = c.z := updates_z r c
@[simp] theorem whip_a (g : Params) (r : Nat) (c : Cipher) : (whip g r c).a = c.a := updates_a r c
theorem whip_w (g : Params) (r : Nat) (c : Cipher) : (whip g r c).w = oddFixStride g c.w := by
  rw [whip, oddFix_w, updates_w]
theorem whip_i (g : Params) (r : Nat) (c : Cipher) : (whip g r c).i = c.i + BitVec.ofNat 8 r * c.w := updates_i r c
theorem whip_bySwaps (g : Params) (r : Nat) (c : Cipher) : BySwaps c.P (whip g r c).P := updates_bySwaps r c

/-- WHIP(512) leaves i where it was, whatever the stride. -/
@[simp] theorem whip_shuffleWhip_i (g : Params) (c : Cipher) : (whip g shuffleWhip c).i = c.i := by
  rw [whip_i]; simp [shuffleWhip, show BitVec.ofNat 8 512 = 0 from rfl]

/-! ### CRUSH (spec/41_primitives.md R104) -/

/-- A pair of crush swaps or changes nothing. -/
theorem crushPair_cases (g : Params) (c : Cipher) (v : Byte) :
    (crushGreater g (memRead c.P v) (memRead c.P (255 - v)) = true ∧ crushPair g c v = swap c v (255 - v)) ∨
    (crushGreater g (memRead c.P v) (memRead c.P (255 - v)) = false ∧ crushPair g c v = c) := by
  unfold crushPair
  cases crushGreater g (memRead c.P v) (memRead c.P (255 - v))
  · exact .inr ⟨rfl, rfl⟩
  · exact .inl ⟨rfl, rfl⟩

/-- The first n pairs of crush. -/
def crushPairs (g : Params) (n : Nat) (c : Cipher) : Cipher :=
  (List.range n).foldl (fun c v => crushPair g c (BitVec.ofNat 8 v)) c

theorem crush_eq_crushPairs (g : Params) (c : Cipher) : crush g c = crushPairs g 128 c := rfl

theorem crushPairs_succ (g : Params) (n : Nat) (c : Cipher) :
    crushPairs g (n + 1) c = crushPair g (crushPairs g n c) (BitVec.ofNat 8 n) := by
  simp [crushPairs, List.range_succ]

/-- Crush reads and writes no index register. -/
theorem crushPairs_registers (g : Params) (n : Nat) (c : Cipher) :
    (crushPairs g n c).i = c.i ∧ (crushPairs g n c).j = c.j ∧ (crushPairs g n c).k = c.k ∧
    (crushPairs g n c).z = c.z ∧ (crushPairs g n c).a = c.a ∧ (crushPairs g n c).w = c.w := by
  induction n with
  | zero => exact ⟨rfl, rfl, rfl, rfl, rfl, rfl⟩
  | succ n ih =>
    rw [crushPairs_succ]
    rcases crushPair_cases g (crushPairs g n c) (BitVec.ofNat 8 n) with ⟨-, h⟩ | ⟨-, h⟩ <;> rw [h] <;> exact ih

@[simp] theorem crush_i (g : Params) (c : Cipher) : (crush g c).i = c.i := (crushPairs_registers g 128 c).1
@[simp] theorem crush_j (g : Params) (c : Cipher) : (crush g c).j = c.j := (crushPairs_registers g 128 c).2.1
@[simp] theorem crush_k (g : Params) (c : Cipher) : (crush g c).k = c.k := (crushPairs_registers g 128 c).2.2.1
@[simp] theorem crush_z (g : Params) (c : Cipher) : (crush g c).z = c.z := (crushPairs_registers g 128 c).2.2.2.1
@[simp] theorem crush_a (g : Params) (c : Cipher) : (crush g c).a = c.a := (crushPairs_registers g 128 c).2.2.2.2.1
@[simp] theorem crush_w (g : Params) (c : Cipher) : (crush g c).w = c.w := (crushPairs_registers g 128 c).2.2.2.2.2

theorem crushPairs_bySwaps (g : Params) (n : Nat) (c : Cipher) : BySwaps c.P (crushPairs g n c).P := by
  induction n with
  | zero => exact .refl _
  | succ n ih =>
    rw [crushPairs_succ]
    rcases crushPair_cases g (crushPairs g n c) (BitVec.ofNat 8 n) with ⟨-, h⟩ | ⟨-, h⟩ <;> rw [h]
    · exact ih.trans (swap_bySwaps _ _ _)
    · exact ih

theorem crush_bySwaps (g : Params) (c : Cipher) : BySwaps c.P (crush g c).P := crushPairs_bySwaps g 128 c

/-! ### SHUFFLE (spec/41_primitives.md R105) -/

@[simp] theorem shuffle_i (g : Params) (c : Cipher) : (shuffle g c).i = c.i := by simp [shuffle]
@[simp] theorem shuffle_z (g : Params) (c : Cipher) : (shuffle g c).z = c.z := by simp [shuffle]
@[simp] theorem shuffle_a (g : Params) (c : Cipher) : (shuffle g c).a = 0 := rfl

theorem shuffle_w (g : Params) (c : Cipher) :
    (shuffle g c).w = oddFixStride g (oddFixStride g (oddFixStride g c.w)) := by
  simp [shuffle, whip_w]

theorem shuffle_w_odd (g : Params) (c : Cipher) : (shuffle g c).w.toNat % 2 = 1 := by
  rw [shuffle_w]; exact oddFixStride_odd g _

/-- From an odd stride, SHUFFLE adds 6 to w on this hardware. -/
theorem shuffle_w_add {g : Params} (hg : g.whipIncrementFirst = true) {c : Cipher} (hw : c.w.toNat % 2 = 1) :
    (shuffle g c).w = c.w + 6 := by
  have h2 : (c.w + 2).toNat % 2 = 1 := by simp [BitVec.toNat_add]; omega
  have h4 : (c.w + 2 + 2).toNat % 2 = 1 := by simp [BitVec.toNat_add]; omega
  rw [shuffle_w, oddFixStride_first hg hw, oddFixStride_first hg h2, oddFixStride_first hg h4]
  simp [BitVec.add_assoc]

theorem shuffle_bySwaps (g : Params) (c : Cipher) : BySwaps c.P (shuffle g c).P := by
  unfold shuffle
  generalize shuffleWhip = r
  have h1 := whip_bySwaps g r c
  have h2 := crush_bySwaps g (whip g r c)
  have h3 := whip_bySwaps g r (crush g (whip g r c))
  have h4 := crush_bySwaps g (whip g r (crush g (whip g r c)))
  have h5 := whip_bySwaps g r (crush g (whip g r (crush g (whip g r c))))
  exact (((h1.trans h2).trans h3).trans h4).trans h5

/-! ### The beginnings of the commands -/

/-- How ABSORB_NIBBLE begins. -/
theorem shuffleIfFull_cases (g : Params) (c : Cipher) :
    (c.a = 128 ∧ shuffleIfFull g c = shuffle g c) ∨ (c.a ≠ 128 ∧ shuffleIfFull g c = c) := by
  unfold shuffleIfFull half; split
  · exact .inl ⟨‹_›, rfl⟩
  · exact .inr ⟨‹_›, rfl⟩

/-- How SQUEEZE begins. -/
theorem shuffleIfPending_cases (g : Params) (c : Cipher) :
    (c.a ≠ 0 ∧ shuffleIfPending g c = shuffle g c) ∨ (c.a = 0 ∧ shuffleIfPending g c = c) := by
  unfold shuffleIfPending; split
  · exact .inl ⟨‹_›, rfl⟩
  · exact .inr ⟨not_not.mp ‹_›, rfl⟩

/-- What ABSORB_STOP does. -/
theorem absorbMarker_cases (g : Params) (c : Cipher) :
    (c.a = 128 ∧ absorbMarker g c =
      if g.stopIncrementAfterShuffle then { shuffle g c with a := (shuffle g c).a + 1 } else shuffle g c) ∨
    (c.a ≠ 128 ∧ absorbMarker g c = { c with a := c.a + 1 }) := by
  unfold absorbMarker half; split
  · exact .inl ⟨‹_›, rfl⟩
  · exact .inr ⟨‹_›, rfl⟩

end Sys2Proof.Machine
end

