-- ==== Sys2Proof/Laws/Commands.lean ====
section
/-! SUPPORT. What each command does to the cipher state, the invariant every operation keeps, and the fields of a word. -/

namespace Sys2Proof.Machine

/-! ### The meanings, as next states -/

theorem exec_init (s : State) : exec .init s = .next (respond { s with cipher := initState } statusOk 0x00) := rfl
theorem exec_absorb (b : Byte) (s : State) :
    exec (.absorb b) s = .next (respond { s with cipher := absorbByte Config.thisHardware s.cipher b } statusOk 0x00) := rfl
theorem exec_absorbStop (s : State) :
    exec .absorbStop s = .next (respond { s with cipher := absorbMarker Config.thisHardware s.cipher } statusOk 0x00) := rfl
theorem exec_squeeze (s : State) :
    exec .squeeze s = .next (respond { s with cipher := squeezeByte Config.thisHardware s.cipher } statusOk
      (squeezeByte Config.thisHardware s.cipher).z) := rfl

/-! ### ABSORB_NIBBLE (spec/42_absorb.md R120) -/

theorem absorbNibble_eq (g : Params) (c : Cipher) (x : BitVec 4) :
    absorbNibble g c x =
      { swap (shuffleIfFull g c) (shuffleIfFull g c).a (nibbleAddress x) with a := (shuffleIfFull g c).a + 1 } := rfl

/-- The entries after ABSORB_NIBBLE. -/
theorem memRead_absorbNibble (g : Params) (c : Cipher) (x : BitVec 4) (q : Byte) :
    memRead (absorbNibble g c x).P q =
      if q = nibbleAddress x then memRead (shuffleIfFull g c).P (shuffleIfFull g c).a
      else if q = (shuffleIfFull g c).a then memRead (shuffleIfFull g c).P (nibbleAddress x)
      else memRead (shuffleIfFull g c).P q :=
  memRead_swap _ _ _ q

/-- The address a nibble selects lies in 128..143 (spec/20_memory.md R56). -/
theorem nibbleAddress_toNat (x : BitVec 4) : (nibbleAddress x).toNat = 128 + x.toNat := by
  have := x.isLt
  have h128 : (128 : Byte).toNat = 128 := rfl
  simp only [nibbleAddress, BitVec.toNat_add, BitVec.toNat_setWidth, h128]
  omega

theorem shuffleIfFull_bySwaps (g : Params) (c : Cipher) : BySwaps c.P (shuffleIfFull g c).P := by
  rcases shuffleIfFull_cases g c with ⟨-, h⟩ | ⟨-, h⟩ <;> rw [h]
  · exact shuffle_bySwaps g c
  · exact .refl _

theorem shuffleIfPending_bySwaps (g : Params) (c : Cipher) : BySwaps c.P (shuffleIfPending g c).P := by
  rcases shuffleIfPending_cases g c with ⟨-, h⟩ | ⟨-, h⟩ <;> rw [h]
  · exact shuffle_bySwaps g c
  · exact .refl _

theorem absorbNibble_bySwaps (g : Params) (c : Cipher) (x : BitVec 4) : BySwaps c.P (absorbNibble g c x).P :=
  (shuffleIfFull_bySwaps g c).trans (swap_bySwaps _ _ _)

theorem absorbByte_bySwaps (g : Params) (c : Cipher) (b : Byte) : BySwaps c.P (absorbByte g c b).P :=
  (absorbNibble_bySwaps g c _).trans (absorbNibble_bySwaps g _ _)

theorem absorbMarker_bySwaps (g : Params) (c : Cipher) : BySwaps c.P (absorbMarker g c).P := by
  rcases absorbMarker_cases g c with ⟨-, h⟩ | ⟨-, h⟩ <;> rw [h]
  · split
    · dsimp only
      exact shuffle_bySwaps g c
    · exact shuffle_bySwaps g c
  · exact .refl _

theorem squeezeByte_eq (g : Params) (c : Cipher) :
    squeezeByte g c =
      { update (shuffleIfPending g c) with z := outputByte (update (shuffleIfPending g c)) } := rfl

theorem squeezeByte_bySwaps (g : Params) (c : Cipher) : BySwaps c.P (squeezeByte g c).P :=
  (shuffleIfPending_bySwaps g c).trans (update_bySwaps _)

/-! ### The registers no absorption touches -/

@[simp] theorem shuffleIfFull_i (g : Params) (c : Cipher) : (shuffleIfFull g c).i = c.i := by
  rcases shuffleIfFull_cases g c with ⟨-, h⟩ | ⟨-, h⟩ <;> simp [h]
@[simp] theorem shuffleIfFull_z (g : Params) (c : Cipher) : (shuffleIfFull g c).z = c.z := by
  rcases shuffleIfFull_cases g c with ⟨-, h⟩ | ⟨-, h⟩ <;> simp [h]
@[simp] theorem absorbNibble_i (g : Params) (c : Cipher) (x : BitVec 4) : (absorbNibble g c x).i = c.i := by
  simp [absorbNibble_eq]
@[simp] theorem absorbNibble_z (g : Params) (c : Cipher) (x : BitVec 4) : (absorbNibble g c x).z = c.z := by
  simp [absorbNibble_eq]
@[simp] theorem absorbByte_i (g : Params) (c : Cipher) (b : Byte) : (absorbByte g c b).i = c.i := by simp [absorbByte]
@[simp] theorem absorbByte_z (g : Params) (c : Cipher) (b : Byte) : (absorbByte g c b).z = c.z := by simp [absorbByte]
@[simp] theorem absorbMarker_i (g : Params) (c : Cipher) : (absorbMarker g c).i = c.i := by
  rcases absorbMarker_cases g c with ⟨-, h⟩ | ⟨-, h⟩ <;> rw [h]
  split <;> simp
@[simp] theorem absorbMarker_z (g : Params) (c : Cipher) : (absorbMarker g c).z = c.z := by
  rcases absorbMarker_cases g c with ⟨-, h⟩ | ⟨-, h⟩ <;> rw [h]
  split <;> simp
@[simp] theorem shuffleIfPending_i (g : Params) (c : Cipher) : (shuffleIfPending g c).i = c.i := by
  rcases shuffleIfPending_cases g c with ⟨-, h⟩ | ⟨-, h⟩ <;> simp [h]
@[simp] theorem shuffleIfPending_z (g : Params) (c : Cipher) : (shuffleIfPending g c).z = c.z := by
  rcases shuffleIfPending_cases g c with ⟨-, h⟩ | ⟨-, h⟩ <;> simp [h]
/-- After SQUEEZE's beginning nothing is pending. -/
@[simp] theorem shuffleIfPending_a (g : Params) (c : Cipher) : (shuffleIfPending g c).a = 0 := by
  rcases shuffleIfPending_cases g c with ⟨-, h⟩ | ⟨h0, h⟩ <;> simp [h]
  exact h0
@[simp] theorem squeezeByte_a (g : Params) (c : Cipher) : (squeezeByte g c).a = 0 := by simp [squeezeByte_eq]

/-! ### The invariant of the cipher state (spec/10_state.md R22, R29) -/

theorem initState_inv : CipherInv initState :=
  { canonical := rfl
    permutation := fun v => ⟨v, rfl, fun _ h => h⟩
    strideOdd := by decide
    counterBound := by decide }

/-- Swapping P and leaving w odd and a at most 128 keeps the invariant. -/
theorem CipherInv.of_bySwaps {c d : Cipher} (h : CipherInv c) (hP : BySwaps c.P d.P) (hw : d.w.toNat % 2 = 1)
    (ha : d.a.toNat ≤ 128) : CipherInv d :=
  { canonical := hP.wf h.canonical, permutation := hP.permutation h.permutation, strideOdd := hw, counterBound := ha }

/-- An increment of a counter below 128 does not wrap. -/
theorem succ_le_128 {a : Byte} (h : a.toNat ≤ 127) : (a + 1).toNat ≤ 128 := by
  have h1 : (1 : Byte).toNat = 1 := rfl
  rw [BitVec.toNat_add, h1]
  omega

theorem shuffle_inv (g : Params) {c : Cipher} (h : CipherInv c) : CipherInv (shuffle g c) :=
  h.of_bySwaps (shuffle_bySwaps g c) (shuffle_w_odd g c) (by simp)

theorem shuffleIfFull_inv (g : Params) {c : Cipher} (h : CipherInv c) :
    CipherInv (shuffleIfFull g c) ∧ (shuffleIfFull g c).a.toNat ≤ 127 := by
  rcases shuffleIfFull_cases g c with ⟨-, e⟩ | ⟨hne, e⟩ <;> rw [e]
  · exact ⟨shuffle_inv g h, by simp⟩
  · have h128 : c.a.toNat ≠ 128 := fun hc => hne (byte_eq_of_toNat hc)
    exact ⟨h, by have := h.counterBound; omega⟩

theorem absorbNibble_inv (g : Params) {c : Cipher} (h : CipherInv c) (x : BitVec 4) : CipherInv (absorbNibble g c x) := by
  obtain ⟨hf, ha⟩ := shuffleIfFull_inv g h
  refine hf.of_bySwaps (d := absorbNibble g c x) (swap_bySwaps _ _ _) hf.strideOdd ?_
  rw [absorbNibble_eq]
  exact succ_le_128 ha

theorem absorbByte_inv (g : Params) {c : Cipher} (h : CipherInv c) (b : Byte) : CipherInv (absorbByte g c b) :=
  absorbNibble_inv g (absorbNibble_inv g h _) _

theorem absorbMarker_inv (g : Params) {c : Cipher} (h : CipherInv c) : CipherInv (absorbMarker g c) := by
  rcases absorbMarker_cases g c with ⟨-, e⟩ | ⟨hne, e⟩ <;> rw [e]
  · have hs := shuffle_inv g h
    have ha := shuffle_a g c
    generalize shuffle g c = d at hs ha ⊢
    split
    · exact hs.of_bySwaps (.refl _) hs.strideOdd (by simp [ha])
    · exact hs
  · have h128 : c.a.toNat ≠ 128 := fun hc => hne (byte_eq_of_toNat hc)
    refine h.of_bySwaps (.refl _) h.strideOdd ?_
    have := h.counterBound
    exact succ_le_128 (by omega)

theorem shuffleIfPending_inv (g : Params) {c : Cipher} (h : CipherInv c) : CipherInv (shuffleIfPending g c) := by
  rcases shuffleIfPending_cases g c with ⟨-, e⟩ | ⟨-, e⟩ <;> rw [e]
  · exact shuffle_inv g h
  · exact h

theorem squeezeByte_inv (g : Params) {c : Cipher} (h : CipherInv c) : CipherInv (squeezeByte g c) := by
  have hp := shuffleIfPending_inv g h
  exact hp.of_bySwaps (d := squeezeByte g c) (update_bySwaps _) hp.strideOdd (by simp)

/-! ### The fields of a command word, as numbers (spec/30_encoding.md R70) -/

theorem opField_toNat (w : Word) : (opField w).toNat = w.toNat / 4096 := by
  have := w.isLt
  simp only [opField, BitVec.extractLsb'_toNat, Nat.shiftRight_eq_div_pow]
  omega
theorem rsvField_toNat (w : Word) : (rsvField w).toNat = w.toNat / 256 % 16 := by
  simp [rsvField, BitVec.extractLsb'_toNat, Nat.shiftRight_eq_div_pow]
theorem dataField_toNat (w : Word) : (dataField w).toNat = w.toNat % 256 := by
  simp [dataField, BitVec.extractLsb'_toNat]
theorem lowNibble_toNat (b : Byte) : (lowNibble b).toNat = b.toNat % 16 := by
  simp [lowNibble, BitVec.extractLsb'_toNat]
theorem highNibble_toNat (b : Byte) : (highNibble b).toNat = b.toNat / 16 := by
  have := b.isLt
  simp only [highNibble, BitVec.extractLsb'_toNat, Nat.shiftRight_eq_div_pow]
  omega
theorem assembleWord_toNat (op rsv : BitVec 4) (data : Byte) :
    (assembleWord op rsv data).toNat = op.toNat * 4096 + rsv.toNat * 256 + data.toNat := by
  have h1 := rsv.isLt
  unfold assembleWord
  rw [BitVec.toNat_append, ← Nat.shiftLeft_add_eq_or_of_lt data.isLt, Nat.shiftLeft_eq, BitVec.toNat_append,
    ← Nat.shiftLeft_add_eq_or_of_lt rsv.isLt, Nat.shiftLeft_eq]
  omega

end Sys2Proof.Machine
end

