-- ==== Sys2Proof/Laws/PerInstr.lean ====
section
/-! SUPPORT. The per-instruction families: a statement about each command as syntax, one lemma per constructor. -/

namespace Sys2Proof.Laws.TableMatch

/-- The word of a command meets its row of the opcode table: its bits under the mask are the match
(spec/30_encoding.md R73). -/
def Statement (i : Instr) : Prop := encode i &&& tableMask i = tableMatch i

theorem init : Statement .init := by unfold Statement; decide
theorem absorb (b : Byte) : Statement (.absorb b) := by
  unfold Statement; revert b; decide +kernel
theorem absorbStop : Statement .absorbStop := by unfold Statement; decide
theorem squeeze : Statement .squeeze := by unfold Statement; decide

end Sys2Proof.Laws.TableMatch
end

