-- ==== Sys2Proof/Laws/Step.lean ====
section
/-! SUPPORT. What one step does in each case, and everything it can do, said once. -/

namespace Sys2Proof.Machine

/-- What the running of the word in CMD answers: the transition of the transaction level, and a pending response. -/
theorem runCommand_eq (s : State) :
    runCommand s = .next { s with cipher := (transact Config.thisHardware s.cipher s.cmd).1,
                                  rsp := (transact Config.thisHardware s.cipher s.cmd).2,
                                  rspValid := true, ctl := .responding } := by
  unfold runCommand transact
  cases decode s.cmd with
  | error e => rfl
  | run i => cases i <;> rfl

/-! ### The step in each case -/

theorem step_rst {s : State} (h : (nextPins s).rst = true) : step s = .next (enterReset (dropPins s)) := by
  simp [step, clockEdge, h]

theorem step_wait {s : State} {n : Nat} (h : (nextPins s).rst = false)
    (hc : s.ctl = .resetting ∨ s.ctl = .busy) (hw : s.wait = n + 1) :
    step s = .next { dropPins s with wait := n } := by
  rcases hc with hc | hc <;> simp [step, clockEdge, h, hc, resettingEdge, busyEdge, hw]

theorem step_resetEnds {s : State} (h : (nextPins s).rst = false) (hc : s.ctl = .resetting) (hw : s.wait = 0) :
    step s = .next (finishReset (dropPins s)) := by
  simp [step, clockEdge, h, hc, resettingEdge, hw]

theorem step_accept {s : State} (h : (nextPins s).rst = false) (hc : s.ctl = .idle) (hv : (nextPins s).cmdValid = true) :
    step s = .next (acceptCommand (nextPins s).cmdData (dropPins s)) := by
  simp [step, clockEdge, h, hc, idleEdge, hv]

theorem step_idle {s : State} (h : (nextPins s).rst = false) (hc : s.ctl = .idle) (hv : (nextPins s).cmdValid = false) :
    step s = .next (dropPins s) := by
  simp [step, clockEdge, h, hc, idleEdge, hv]

theorem step_run {s : State} (h : (nextPins s).rst = false) (hc : s.ctl = .busy) (hw : s.wait = 0) :
    step s = runCommand (dropPins s) := by
  simp [step, clockEdge, h, hc, busyEdge, hw]

theorem step_deliver {s : State} (h : (nextPins s).rst = false) (hc : s.ctl = .responding)
    (hv : (nextPins s).rspReady = true) : step s = .next { dropPins s with rspValid := false, ctl := .idle } := by
  simp [step, clockEdge, h, hc, respondingEdge, hv]

theorem step_hold {s : State} (h : (nextPins s).rst = false) (hc : s.ctl = .responding)
    (hv : (nextPins s).rspReady = false) : step s = .next (dropPins s) := by
  simp [step, clockEdge, h, hc, respondingEdge, hv]

/-! ### All of the cases -/

/-- Everything one step can do, one constructor per case of the edge. -/
inductive StepCase (s : State) : State → Prop where
  /-- An edge with `rst = 1`. -/
  | reset (h : (nextPins s).rst = true) : StepCase s (enterReset (dropPins s))
  /-- An edge inside the reset sequence or inside a command. -/
  | wait (n : Nat) (h : (nextPins s).rst = false) (hc : s.ctl = .resetting ∨ s.ctl = .busy) (hw : s.wait = n + 1) :
      StepCase s { dropPins s with wait := n }
  /-- The end of the reset sequence. -/
  | resetEnds (h : (nextPins s).rst = false) (hc : s.ctl = .resetting) (hw : s.wait = 0) :
      StepCase s (finishReset (dropPins s))
  /-- A command transfer. -/
  | accept (h : (nextPins s).rst = false) (hc : s.ctl = .idle) (hv : (nextPins s).cmdValid = true) :
      StepCase s (acceptCommand (nextPins s).cmdData (dropPins s))
  /-- Nothing offered in IDLE. -/
  | idle (h : (nextPins s).rst = false) (hc : s.ctl = .idle) (hv : (nextPins s).cmdValid = false) :
      StepCase s (dropPins s)
  /-- The word in CMD runs. -/
  | run (h : (nextPins s).rst = false) (hc : s.ctl = .busy) (hw : s.wait = 0) :
      StepCase s { dropPins s with cipher := (transact Config.thisHardware s.cipher s.cmd).1,
                                   rsp := (transact Config.thisHardware s.cipher s.cmd).2,
                                   rspValid := true, ctl := .responding }
  /-- A response transfer. -/
  | deliver (h : (nextPins s).rst = false) (hc : s.ctl = .responding) (hv : (nextPins s).rspReady = true) :
      StepCase s { dropPins s with rspValid := false, ctl := .idle }
  /-- A response not taken. -/
  | hold (h : (nextPins s).rst = false) (hc : s.ctl = .responding) (hv : (nextPins s).rspReady = false) :
      StepCase s (dropPins s)

/-- Every step answers a next state by one of the cases. -/
theorem step_case (s : State) : ∃ t, step s = .next t ∧ StepCase s t := by
  cases hr : (nextPins s).rst with
  | true => exact ⟨_, step_rst hr, .reset hr⟩
  | false =>
    cases hc : s.ctl with
    | resetting =>
      cases hw : s.wait with
      | zero => exact ⟨_, step_resetEnds hr hc hw, .resetEnds hr hc hw⟩
      | succ n => exact ⟨_, step_wait hr (.inl hc) hw, .wait n hr (.inl hc) hw⟩
    | idle =>
      cases hv : (nextPins s).cmdValid with
      | true => exact ⟨_, step_accept hr hc hv, .accept hr hc hv⟩
      | false => exact ⟨_, step_idle hr hc hv, .idle hr hc hv⟩
    | busy =>
      cases hw : s.wait with
      | zero => exact ⟨_, (step_run hr hc hw).trans (runCommand_eq _), .run hr hc hw⟩
      | succ n => exact ⟨_, step_wait hr (.inr hc) hw, .wait n hr (.inr hc) hw⟩
    | responding =>
      cases hv : (nextPins s).rspReady with
      | true => exact ⟨_, step_deliver hr hc hv, .deliver hr hc hv⟩
      | false => exact ⟨_, step_hold hr hc hv, .hold hr hc hv⟩

/-- If a step answers t, one of the cases leads to t. -/
theorem step_cases {s t : State} (h : step s = .next t) : StepCase s t := by
  obtain ⟨u, hu, hcase⟩ := step_case s
  rw [hu] at h
  injection h with h
  exact h ▸ hcase

/-! ### Runs -/

/-- A run of n + 1 steps is one step and then a run of n. -/
theorem traceOf_succ {n : Nat} {s t : State} {r : Trace} (hs : step s = .next t) (hr : traceOf n t = some r) :
    traceOf (n + 1) s = some { final := r.final,
                               accepted := (acceptedNext s).toList ++ r.accepted,
                               delivered := (deliveredNext s).toList ++ r.delivered } := by
  simp [traceOf, hs, hr]

/-- Every run has a first step and a run after it. -/
theorem traceOf_cases {n : Nat} {s : State} {r : Trace} (h : traceOf (n + 1) s = some r) :
    ∃ t r', step s = .next t ∧ StepCase s t ∧ traceOf n t = some r' ∧
      r = { final := r'.final, accepted := (acceptedNext s).toList ++ r'.accepted,
            delivered := (deliveredNext s).toList ++ r'.delivered } := by
  obtain ⟨t, ht, hc⟩ := step_case s
  cases hr : traceOf n t with
  | none => simp [traceOf, ht, hr] at h
  | some r' => exact ⟨t, r', ht, hc, hr, Option.some.inj (h.symm.trans (traceOf_succ ht hr))⟩

/-- A run and a run from where it ended are one run. -/
theorem traceOf_append {n m : Nat} {s : State} {r r' : Trace} (h : traceOf n s = some r) (h' : traceOf m r.final = some r') :
    traceOf (n + m) s = some { final := r'.final, accepted := r.accepted ++ r'.accepted,
                               delivered := r.delivered ++ r'.delivered } := by
  induction n generalizing s r with
  | zero =>
    obtain rfl : _ = r := Option.some.inj h
    simpa using h'
  | succ n ih =>
    obtain ⟨t, q, ht, -, hq, rfl⟩ := traceOf_cases h
    have := ih hq h'
    rw [show n + 1 + m = n + m + 1 by omega, traceOf_succ ht this]
    simp

/-- No reset comes at the next edge, nor at the n edges after it. -/
theorem noResetFor_succ {n : Nat} {s : State} (h : noResetFor (n + 1) s = true) :
    (nextPins s).rst = false ∧ ∀ t : State, t.pins = s.pins.tail → noResetFor n t = true := by
  unfold noResetFor nextPins at *
  cases hp : s.pins with
  | nil => exact ⟨rfl, fun t ht => by rw [ht]; simp⟩
  | cons p ps =>
    rw [hp, List.take_succ_cons, List.all_cons, Bool.and_eq_true] at h
    exact ⟨by simpa using h.1, fun t ht => by rw [ht]; exact h.2⟩

/-- The edges of a command: its latency passes, the word in CMD runs, nothing transfers. -/
theorem traceOf_command {n : Nat} : ∀ {s : State}, s.ctl = .busy → s.rspValid = false → s.wait = n →
    noResetFor (n + 1) s = true →
    traceOf (n + 1) s = some {
      final := { s with cipher := (transact Config.thisHardware s.cipher s.cmd).1,
                        rsp := (transact Config.thisHardware s.cipher s.cmd).2,
                        rspValid := true, ctl := .responding, wait := 0, pins := s.pins.drop (n + 1) }
      accepted := [], delivered := [] } := by
  induction n with
  | zero =>
    intro s hc hv hw h
    rw [traceOf_succ ((step_run (noResetFor_succ h).1 hc hw).trans (runCommand_eq _)) rfl]
    simp [acceptedNext, deliveredNext, cmdReady, hc, hv, hw, List.drop_one]
  | succ n ih =>
    intro s hc hv hw h
    obtain ⟨hr, hn⟩ := noResetFor_succ h
    rw [traceOf_succ (step_wait hr (.inr hc) hw) (ih (s := { dropPins s with wait := n }) hc hv rfl (hn _ rfl))]
    simp [acceptedNext, deliveredNext, cmdReady, hc, hv]

end Sys2Proof.Machine
end

