-- ==== Sys2Proof/Tests/Slice0.lean ====
section
/-! SUPPORT. Tests against the spec's own words, examples and vectors, and the witnesses of the statements' hypotheses. -/

namespace Sys2Proof.Tests

open Sys2Proof.Machine

/-! ### WellFormed refuses: one ill-formed term for each check -/

theorem test_wf_number : (AsmLine.absorb (.number 256)).wellFormed = false := by decide
theorem test_wf_character : (AsmLine.absorb (.character (Char.ofNat 233))).wellFormed = false := by decide
theorem test_wf_bytes : (AsmLine.absorbs [.number 1, .number 300]).wellFormed = false := by decide
theorem test_wf_text : (AsmLine.absorbStr ['a', Char.ofNat 233]).wellFormed = false := by decide
theorem test_wf_key : (AsmLine.keySetup (.text [Char.ofNat 233]) (.bytes [])).wellFormed = false := by decide
theorem test_wf_iv : (AsmLine.keySetup (.bytes [.number 255]) (.bytes [.number 256])).wellFormed = false := by decide
theorem test_wf_command : (Instr.absorb 0xFF).wellFormed = true := by decide

/-! ### Decode: the rows of spec/95_test_vectors.md 2.1, the first of each family bit by bit from spec/30_encoding.md R73 -/

theorem test_decode_init : decode 0b0001_0000_00000000 = .run .init := by decide
theorem test_decode_absorb : decode 0b0010_0000_01000001 = .run (.absorb 0x41) := by decide
theorem test_decode_absorbStop : decode 0b0011_0000_00000000 = .run .absorbStop := by decide
theorem test_decode_squeeze : decode 0b0100_0000_00000000 = .run .squeeze := by decide
theorem test_decode_reserved :
    [0x1001, 0x1100, 0x2100, 0x2F41, 0x3080, 0x40FF].map decode =
      List.replicate 6 (.error .reservedNonzero) := by decide
theorem test_decode_illegal :
    [0x0000, 0x0FFF, 0x5000, 0xF123].map decode = List.replicate 4 (.error .illegalOpcode) := by decide

/-! ### The micro-operations (spec/95_test_vectors.md 2.2, 2.3, 2.4, 2.6) -/

/-- A cipher state with the identity permutation and the given registers. -/
def identityWith (i j k z a w : Byte) : Cipher := { P := [], i := i, j := j, k := k, z := z, a := a, w := w }

theorem test_update_wraps : update (identityWith 254 0 0 0 0 3) = identityWith 1 1 2 0 0 3 := by decide
theorem test_update_swaps :
    update (identityWith 0 10 250 0 0 1) = { identityWith 1 5 0 0 0 1 with P := [(1, 5), (5, 1)] } := by decide
theorem test_oddFix_wraps : oddFixStride Config.thisHardware 255 = 1 := by decide
theorem test_whip_one : whip Config.thisHardware 1 initState = identityWith 1 1 2 0 0 3 := by decide
theorem test_crush_unsigned :
    crush Config.thisHardware { initState with P := [(0, 128), (1, 255), (128, 0), (255, 1)] } =
      { initState with P := [(0, 1), (1, 254), (127, 0), (128, 127), (254, 255), (255, 128)] } := by decide +kernel
theorem test_crush_signed :
    crush { Config.thisHardware with crushSignedCompare := true } { initState with P := [(127, 128), (128, 127)] } =
      { initState with P := (List.range 256).map (fun n => (n, BitVec.ofNat 8 (255 - n))) } := by decide +kernel
theorem test_absorbNibble :
    absorbNibble Config.thisHardware initState 5 = { initState with P := [(0, 133), (133, 0)], a := 1 } := by decide

/-! ### The commands, one step each -/

/-- A block that runs the word next, from the given cipher state. -/
def about (c : Cipher) (cmd : Word) : State := placeCommand cmd { State.reset with cipher := c }

/-- The cipher state and the response after the next step. -/
def after (s : State) : Option (Cipher × Word) :=
  match step s with
  | .next t => some (t.cipher, t.rsp)
  | .fault _ => none
  | .refused _ => none

theorem test_init_midstream :
    after (about { identityWith 2 5 9 20 3 7 with P := [(2, 5), (5, 2)] } 0x1000) = some (initState, 0x0000) := by decide
theorem test_absorb_41 :
    after (about initState 0x2041) =
      some ({ initState with P := [(0, 0x81), (1, 0x84), (129, 0x00), (132, 0x01)], a := 2 }, 0x0000) := by decide
theorem test_absorb_ff :
    after (about initState 0x20FF) =
      some ({ initState with P := [(0, 0x8f), (1, 0x00), (143, 0x01)], a := 2 }, 0x0000) := by decide
theorem test_absorbStop :
    after (about (identityWith 0 0 0 0 5 1) 0x3000) = some (identityWith 0 0 0 0 6 1, 0x0000) := by decide
theorem test_squeeze_first : after (about initState 0x4000) = some (identityWith 1 1 2 4 0 1, 0x0004) := by decide
theorem test_squeeze_wraps :
    after (about (identityWith 0 0 200 100 0 1) 0x4000) =
      some ({ identityWith 1 201 146 192 0 1 with P := [(1, 201), (201, 1)] }, 0x00c0) := by decide
theorem test_malformed :
    after (about initState 0x2141) = some (initState, 0x0200) ∧ after (about initState 0xF000) = some (initState, 0x0100) := by
  decide

/-! ### The assembler (spec/30_encoding.md R78, R79; the lines of spec/95_test_vectors.md P3, P2, P4) -/

theorem test_text_keysetup : assembleText "KEYSETUP 0x41 ; 0x42   ; 2041".toList = some [0x2041, 0x3000, 0x2042] := by decide
theorem test_text_character : assembleText "ABSORB 'A'      ; 2041".toList = some [0x2041] := by decide
theorem test_text_absorbstr : assembleLine (.absorbStr ['A', 'B', 'C']) = some [0x2041, 0x2042, 0x2043] := by decide
theorem test_text_comment : assembleText "; illegal OP".toList = some [] ∧ assembleText "SQUEEZE 1".toList = none := by decide

/-! ### Witnesses: for each statement with hypotheses, a state that meets them all -/

/-- A host that drives rst for one edge. -/
def resetPins : Pins := { Pins.quiet with rst := true }
/-- A host that is ready for a response and offers nothing. -/
def readyPins : Pins := { Pins.quiet with rspReady := true }
/-- A host that offers a word and is ready for a response. -/
def offerPins (w : Word) : Pins := { readyPins with cmdValid := true, cmdData := w }

/-- A block with a response pending and these inputs to come. -/
def pendingWith (ps : List Pins) : State := { State.reset with rspValid := true, ctl := .responding, pins := ps }

theorem witness_DecodeAndEncodeAgree : (Instr.absorb 0xFF).wellFormed = true ∧ decode 0x20FF = .run (.absorb 0xFF) := by decide
theorem witness_DecodeChecksInOrder :
    (0x0FFF / 4096 = 0 ∧ 0x5000 / 4096 = 5) ∧ (0x1F00 / 4096 = 1 ∧ 0x4100 / 256 % 16 = 1) ∧ 0x3001 / 4096 = 3 ∧
    decode 0x0FFF = .error .illegalOpcode ∧ decode 0x5000 = .error .illegalOpcode ∧
    decode 0x1F00 = .error .reservedNonzero ∧ decode 0x4100 = .error .reservedNonzero ∧
    decode 0x3001 = .error .reservedNonzero ∧ decode 0x2000 = .run (.absorb 0) := by decide
theorem witness_StepRunsTheDecodedCommand :
    (about initState 0x4000).ctl = .busy ∧ (about initState 0x4000).wait = 0 ∧
    (nextPins (about initState 0x4000)).rst = false ∧ decode (about initState 0x4000).cmd = .run .squeeze := by decide
theorem witness_PlacedWordRunsNext :
    Instr.squeeze.wellFormed = true ∧ after (State.reset.withFetchWord 16 0x4000) = some (identityWith 1 1 2 4 0 1, 0x0004) := by
  decide
theorem witness_CommandErrorIsPrecise :
    (about initState 0x3080).ctl = .busy ∧ (about initState 0x3080).wait = 0 ∧
    (nextPins (about initState 0x3080)).rst = false ∧ decode (about initState 0x3080).cmd = .error .reservedNonzero ∧
    decode (about initState 0x0000).cmd = .error .illegalOpcode ∧
    (∃ t, step { about initState 0x3080 with pins := [Pins.quiet, readyPins] } = .next t ∧
      (nextPins t).rst = false ∧ (nextPins t).rspReady = true) := by
  exact ⟨rfl, rfl, rfl, by decide, by decide, _, rfl, rfl, rfl⟩
theorem witness_ControllerTransitions :
    (nextPins { State.reset with pins := [offerPins 0x1000] }).rst = false ∧
    (nextPins { State.reset with pins := [offerPins 0x1000] }).cmdValid = true ∧
    (∃ t, step { State.reset with pins := [offerPins 0x1000] } = .next t ∧ t.ctl = .busy) ∧
    (∃ t, step { State.reset with pins := [resetPins] } = .next t ∧ t.ctl = .resetting) ∧
    (∃ t, step { State.reset with ctl := .resetting } = .next t ∧ t.ctl = .idle) ∧
    (∃ t, step { State.reset with ctl := .busy, wait := 1 } = .next t ∧ t.ctl = .busy) ∧
    (∃ t, step (pendingWith [readyPins]) = .next t ∧ t.ctl = .idle) ∧
    (∃ t, step (pendingWith [Pins.quiet]) = .next t ∧ t.ctl = .responding) :=
  ⟨rfl, rfl, ⟨_, rfl, rfl⟩, ⟨_, rfl, rfl⟩, ⟨_, rfl, rfl⟩, ⟨_, rfl, rfl⟩, ⟨_, rfl, rfl⟩, ⟨_, rfl, rfl⟩⟩
theorem witness_UntakenResponseIsHeld :
    (pendingWith [Pins.quiet, Pins.quiet]).ctl = .responding ∧
    ∀ p ∈ (pendingWith [Pins.quiet, Pins.quiet]).pins.take 2, p.rst = false ∧ p.rspReady = false := by decide
/-- A word offered while a response is pending: the same edge takes the response, so IDLE follows and the word transfers. -/
theorem witness_OfferedWordWaits :
    let s := pendingWith [offerPins 0x4000, offerPins 0x4000]
    (nextPins s).rst = false ∧ cmdReady s = false ∧ (nextPins s).cmdValid = true ∧
    ∃ t, step s = .next t ∧ hostHoldsOffer s (nextPins t) = true ∧ (nextPins t).cmdValid = true ∧ t.ctl = .idle ∧ (nextPins t).rst = false ∧
      acceptedNext t = some 0x4000 :=
  ⟨rfl, rfl, rfl, _, rfl, rfl, rfl, rfl, rfl, rfl⟩
theorem witness_EveryCommandIsAnswered :
    ({ State.reset with ctl := .busy, wait := 2 } : State).ctl = .busy ∧
    ∀ n, noResetFor n { { State.reset with ctl := .busy, wait := 2 } with
      pins := List.replicate n readyPins ++ [resetPins] } = true := by
  refine ⟨rfl, fun n => ?_⟩
  simp [noResetFor, readyPins, Pins.quiet]
theorem witness_ResetAbandonsWhateverRan :
    (nextPins { State.reset with ctl := .busy, wait := 7, pins := [resetPins] }).rst = true ∧
    ∃ t, step { State.reset with ctl := .busy, wait := 7, pins := [resetPins] } = .next t ∧
      ∀ n, noResetFor n t = true := by
  refine ⟨rfl, _, rfl, fun n => ?_⟩
  simp [noResetFor, enterReset, dropPins]
theorem witness_ReadReturnsTheLastWrite :
    Memory.wf [] = true ∧ memRead (memWrite [] 255 0) 255 = 0 ∧ memRead (memWrite [] 255 0) 254 = 254 := by decide
theorem witness_EqualReadsAreEqualData : Memory.wf [(0, 1), (1, 0)] = true ∧ Memory.wf [(0, 1), (255, 0)] = true := by decide
theorem witness_SwapExchangesTwoEntries : initState.P.wf = true ∧ IsPermutation initState.P :=
  ⟨rfl, initState_inv.permutation⟩
/-- A state whose new i and new j meet. -/
theorem witness_UpdateIsOneMicroStep : (update initState).i = (update initState).j := by decide
theorem witness_OddFixLeavesAnOddStride :
    Config.thisHardware.whipIncrementFirst = true ∧ initState.w.toNat % 2 = 1 ∧
    ({ Config.thisHardware with whipIncrementFirst := false } : Params).whipIncrementFirst = false := by decide
theorem witness_CrushOrdersEachPair :
    (127 : Byte).toNat < 128 ∧ Config.thisHardware.crushSignedCompare = false ∧
    (∀ x : Byte, memRead initState.P x = x) ∧
    (∀ x : Byte, memRead ((List.range 256).map (fun n => (n, BitVec.ofNat 8 (255 - n)))) x = 255 - x) :=
  ⟨by decide, rfl, fun _ => rfl, by decide +kernel⟩
theorem witness_ShuffleRemixes : Config.thisHardware.whipIncrementFirst = true ∧ initState.w.toNat % 2 = 1 := by decide
theorem witness_StrideGrowsExactlyWhereShuffleRuns :
    Instr.squeeze ≠ .init ∧ (identityWith 0 0 0 0 1 255).w.toNat % 2 = 1 ∧
    runsShuffle .squeeze (identityWith 0 0 0 0 1 255) = true ∧ runsShuffle .squeeze initState = false ∧
    runsShuffle (.absorb 0) (identityWith 0 0 0 0 127 1) = true ∧ runsShuffle (.absorb 0) (identityWith 0 0 0 0 126 1) = false ∧
    runsShuffle .absorbStop (identityWith 0 0 0 0 128 1) = true ∧
    runsShuffle .absorbStop (identityWith 0 0 0 0 127 1) = false := by decide
theorem witness_NibbleSwapsAtTheCounter :
    (identityWith 0 0 0 0 128 1).a = 128 ∧ (identityWith 0 0 0 0 127 1).a ≠ 128 ∧
    (identityWith 0 0 0 0 128 1).a.toNat ≤ 128 := by decide
theorem witness_InitStartsASession : (0x1FFF : Word).toNat / 4096 = 1 ∧ (0x1FFF : Word) ≠ 0x1000 := by decide
theorem witness_InitFrame : ∃ t, exec .init State.reset = .next t := ⟨_, rfl⟩
theorem witness_AbsorbIsTwoNibbles :
    (0x2FFF : Word).toNat / 4096 = 2 ∧ (0x2FFF : Word).toNat / 256 % 16 ≠ 0 ∧ (0x20FF : Word).toNat / 256 % 16 = 0 ∧
    State.reset.cipher = initState ∧ (identityWith 0 0 0 0 126 1).a.toNat < 127 := by decide
theorem witness_AbsorbWithoutShuffle :
    (identityWith 0 0 0 0 126 1).a.toNat ≠ 127 ∧ (identityWith 0 0 0 0 126 1).a.toNat ≠ 128 := by decide
theorem witness_AbsorbWithShuffle :
    (identityWith 0 0 0 0 128 1).a.toNat = 128 ∧ (identityWith 0 0 0 0 127 1).a.toNat = 127 := by decide
theorem witness_AbsorbFrame :
    (∃ t, exec (.absorb 0x41) State.reset = .next t) ∧ runsShuffle (.absorb 0x41) State.reset.cipher = false ∧
    (2 : Byte) ≠ State.reset.cipher.a ∧ (2 : Byte) ≠ nibbleAddress (lowNibble 0x41) ∧ (2 : Byte) ≠ State.reset.cipher.a + 1 ∧
    (2 : Byte) ≠ nibbleAddress (highNibble 0x41) := ⟨⟨_, rfl⟩, by decide⟩
theorem witness_AbsorbStopMarks :
    (identityWith 0 0 0 0 128 1).a.toNat = 128 ∧ (identityWith 0 0 0 0 255 1).a.toNat ≠ 128 ∧
    (identityWith 0 0 0 0 5 1).a.toNat = 5 ∧
    ({ Config.thisHardware with stopIncrementAfterShuffle := true } : Params).stopIncrementAfterShuffle = true ∧
    (about initState 0x3001).cmd.toNat / 4096 = 3 ∧ (about initState 0x3001).cmd ≠ 0x3000 := by decide
theorem witness_AbsorbStopFrame :
    (∃ t, exec .absorbStop State.reset = .next t) ∧ runsShuffle .absorbStop State.reset.cipher = false :=
  ⟨⟨_, rfl⟩, by decide⟩
theorem witness_SqueezeAnswersTheOutputByte :
    State.reset.cipher = initState ∧ State.reset.cipher.w.toNat % 2 = 1 ∧
    (about initState 0x4F00).cmd.toNat / 4096 = 4 ∧ (about initState 0x4F00).cmd ≠ 0x4000 := by decide
theorem witness_SqueezeFrame :
    (∃ t, exec .squeeze State.reset = .next t) ∧ runsShuffle .squeeze State.reset.cipher = false ∧
    (0 : Byte) ≠ (update State.reset.cipher).i ∧ (0 : Byte) ≠ (update State.reset.cipher).j := ⟨⟨_, rfl⟩, by decide⟩
theorem witness_SqueezeAlwaysAdvances :
    State.reset.cipher.w.toNat % 2 = 1 ∧ decode (about initState 0x1000).cmd ≠ .run .squeeze := by decide
theorem witness_AbsorptionBoundary :
    initState.a = 0 ∧ (List.replicate 63 (Instr.absorb 0) ++ [Instr.absorbStop, Instr.absorbStop]).all isAbsorption = true ∧
    ((List.replicate 63 (Instr.absorb 0) ++ [Instr.absorbStop, Instr.absorbStop]).map absorbCount).sum = 128 ∧
    (List.replicate 64 (0 : Byte)).length = 64 := by decide
theorem witness_AssembledWordsDecodeToTheLine :
    (AsmLine.absorb (.number 255)).wellFormed = true ∧ (AsmLine.absorb (.number 256)).wellFormed = false ∧ 255 < 256 := by decide

theorem reset_inv : Inv State.reset :=
  { cipher := initState_inv, interface := ⟨by decide, by decide, by decide⟩ }

theorem witness_EveryStepKeepsTheInvariant :
    Inv { State.reset with pins := [offerPins 0x1000] } ∧
    ∃ t, step { State.reset with pins := [offerPins 0x1000] } = .next t :=
  ⟨{ cipher := initState_inv, interface := ⟨by decide, by decide, by decide⟩ }, _, rfl⟩
theorem witness_OnlySwapsAndInitialisationWriteP : ∃ t, step (about initState 0x4000) = .next t := ⟨_, rfl⟩
/-- A SQUEEZE that changes i, j, k and z, and an INIT that changes w. -/
theorem witness_RegistersAreWrittenByTheirCommandsOnly :
    (nextPins (about initState 0x4000)).rst = false ∧ (about initState 0x4000).ctl ≠ .resetting ∧
    (∃ t, step (about initState 0x4000) = .next t ∧ t.cipher.i ≠ initState.i) ∧
    (∃ t, step (about (identityWith 0 0 0 0 0 3) 0x1000) = .next t ∧ t.cipher.w ≠ 3) ∧
    (∃ t, step { State.reset with pins := [offerPins 0x1000] } = .next t ∧ t.cmd ≠ State.reset.cmd) :=
  ⟨rfl, by decide, ⟨_, rfl, by decide⟩, ⟨_, rfl, by decide⟩, ⟨_, rfl, by decide⟩⟩
theorem witness_OnlySqueezeRevealsTheCipher :
    ¬ ((about initState 0x2041).ctl = .busy ∧ (about initState 0x2041).wait = 0 ∧
      decode (about initState 0x2041).cmd = .run .squeeze) ∧ ∃ t, step (about initState 0x2041) = .next t :=
  ⟨by decide, _, rfl⟩

/-- A session of one command: the word is offered at the first edge and the host takes the response when it comes, whatever the
latency. -/
def sessionOf (c : Cipher) (w : Word) : State :=
  { State.reset with cipher := c, pins := offerPins w :: List.replicate (latencyOf w c + 2) readyPins }

/-- The session runs from IDLE to IDLE, accepts the word and delivers its response. -/
theorem session_runs (c : Cipher) (w : Word) :
    noResetFor (latencyOf w c + 3) (sessionOf c w) = true ∧
    ∃ r, traceOf (latencyOf w c + 3) (sessionOf c w) = some r ∧ r.final.ctl = .idle ∧ r.accepted = [w] ∧
      r.delivered = [(transact Config.thisHardware c w).2] := by
  refine ⟨by simp [noResetFor, sessionOf, offerPins, readyPins, Pins.quiet], ?_⟩
  have h1 : step (sessionOf c w) = .next (acceptCommand w (dropPins (sessionOf c w))) := step_accept rfl rfl rfl
  have h2 := traceOf_command (n := latencyOf w c) (s := acceptCommand w (dropPins (sessionOf c w))) rfl rfl rfl
    (by simp [noResetFor, sessionOf, readyPins, Pins.quiet])
  have hp : (dropPins (sessionOf c w)).pins.drop (latencyOf w c + 1) = [readyPins] := by
    simp [sessionOf, List.drop_replicate]
  obtain ⟨r, hr, hc, hv, hrsp, hpins, ha, hd⟩ :
      ∃ r, traceOf (latencyOf w c + 1 + 1) (sessionOf c w) = some r ∧ r.final.ctl = .responding ∧ r.final.rspValid = true ∧
        r.final.rsp = (transact Config.thisHardware c w).2 ∧ r.final.pins = [readyPins] ∧ r.accepted = [w] ∧
        r.delivered = [] := ⟨_, traceOf_succ h1 h2, rfl, rfl, rfl, hp, rfl, rfl⟩
  have hn : nextPins r.final = readyPins := by simp [nextPins, hpins]
  have h3 := traceOf_append hr (traceOf_succ (step_deliver (by rw [hn]; rfl) hc (by rw [hn]; rfl)) (n := 0) rfl)
  refine ⟨_, h3, rfl, ?_, ?_⟩
  · simp [ha, acceptedNext, cmdReady, hc]
  · simp [hd, deliveredNext, hn, hv, hrsp, readyPins, Pins.quiet]

theorem session_inv (w : Word) : Inv (sessionOf initState w) :=
  { cipher := initState_inv, interface := ⟨by simp [sessionOf], by simp [sessionOf, rspStatus], fun h => by simp [sessionOf, rspData]⟩ }

theorem witness_RunsRefineTransactions :
    ∃ n s r, Inv s ∧ s.ctl = .idle ∧ noResetFor n s = true ∧ traceOf n s = some r ∧ r.final.ctl = .idle ∧
      r.accepted = [0x4000] ∧ r.delivered = [0x0004] := by
  obtain ⟨h1, r, h2, h3, h4, h5⟩ := session_runs initState 0x4000
  exact ⟨_, _, r, session_inv _, rfl, h1, h2, h3, h4, h5.trans (by decide)⟩
theorem witness_KeystreamIsDetermined :
    ∃ n s r, Inv s ∧ s.ctl = .idle ∧ noResetFor n s = true ∧ traceOf n s = some r ∧ r.final.ctl = .idle ∧
      r.accepted = encode .init :: [] := by
  obtain ⟨h1, r, h2, h3, h4, -⟩ := session_runs initState 0x1000
  exact ⟨_, _, r, session_inv _, rfl, h1, h2, h3, h4⟩
theorem witness_OneResponsePerCommand :
    ∃ n s r, Inv s ∧ s.ctl = .idle ∧ noResetFor n s = true ∧ traceOf n s = some r ∧ r.accepted.length = 1 := by
  obtain ⟨h1, r, h2, -, h4, -⟩ := session_runs initState 0x2041
  exact ⟨_, _, r, session_inv _, rfl, h1, h2, by rw [h4]; rfl⟩

theorem witness_NothingTransfersAtAResetEdge :
    (nextPins (pendingWith [{ offerPins 0x4000 with rst := true }])).rst = true ∧ resetPins.rst = true := by decide

end Sys2Proof.Tests
end

section
/-! ### The state after reset and after INIT (spec/10_state.md R38) -/

namespace Sys2Proof.Machine

/-- Settles O14: the constants by the laws of `State.reset` and `initState`, the edge with `rst` 1 by `step_rst`, and what
INIT leaves by `exec_init`. -/
theorem resetStateIsTheSpecs : Obligations.ResetStateIsTheSpecs := by
  unfold Obligations.ResetStateIsTheSpecs
  rw [reset_cipher]
  refine ⟨memRead_nil, initState_i, initState_j, initState_k, initState_z, initState_a, initState_w,
    reset_rsp, reset_rspValid, reset_ctl, fun s hrst => ?_, fun s => ?_⟩
  · exact ⟨_, step_rst hrst, enterReset_ctl _, enterReset_rsp _, enterReset_rspValid _⟩
  · exact ⟨_, exec_init s, respond_cipher _ _ _, respond_rspValid _ _ _, rspStatus_responseWord _ _, respond_ctl _ _ _⟩

end Sys2Proof.Machine
end

section
/-! ### The decoder, check by check, on the fields as numbers (spec/30_encoding.md R75) -/

namespace Sys2Proof.Machine

/-- The four defined values of OP are 1 to 4. -/
theorem opDefined_iff (op : BitVec 4) : opDefined op = true ↔ 1 ≤ op.toNat ∧ op.toNat ≤ 4 := by
  revert op; decide

/-- Among the defined commands only the one with OP = 2, ABSORB, takes an operand. -/
theorem opTakesNoOperand_iff (op : BitVec 4) :
    opTakesNoOperand op = true ↔ op.toNat = 1 ∨ op.toNat = 3 ∨ op.toNat = 4 := by
  revert op; decide

theorem dataField_eq_ofNat (w : Word) : dataField w = BitVec.ofNat 8 (w.toNat % 256) := by
  rw [← dataField_toNat, BitVec.ofNat_toNat, BitVec.setWidth_eq]

/-- `decode` with its conditions read on the numbers that OP, RSV and DATA hold. -/
theorem decode_eq_checks (w : Word) :
    decode w =
      if ¬ (1 ≤ w.toNat / 4096 ∧ w.toNat / 4096 ≤ 4) then .error .illegalOpcode
      else if w.toNat / 256 % 16 ≠ 0 then .error .reservedNonzero
      else if (w.toNat / 4096 = 1 ∨ w.toNat / 4096 = 3 ∨ w.toNat / 4096 = 4) ∧ w.toNat % 256 ≠ 0 then
        .error .reservedNonzero
      else if w.toNat / 4096 = 1 then .run .init
      else if w.toNat / 4096 = 2 then .run (.absorb (BitVec.ofNat 8 (w.toNat % 256)))
      else if w.toNat / 4096 = 3 then .run .absorbStop
      else .run .squeeze := by
  have hop (n : BitVec 4) : opField w = n ↔ w.toNat / 4096 = n.toNat := by
    rw [← opField_toNat, BitVec.toNat_inj]
  have hrsv : rsvField w = 0 ↔ w.toNat / 256 % 16 = 0 := by rw [← rsvField_toNat, BitVec.toNat_eq]; rfl
  have hdata : dataField w = 0 ↔ w.toNat % 256 = 0 := by rw [← dataField_toNat, BitVec.toNat_eq]; rfl
  rw [← dataField_eq_ofNat]
  simp only [decode, Bool.not_eq_true', ← Bool.not_eq_true, opDefined_iff, opTakesNoOperand_iff, opField_toNat, hop,
    ne_eq, hrsv, hdata]
  rfl

/-- An undefined OP raises ILLEGAL_OPCODE, whatever RSV and DATA hold. -/
theorem decode_illegalOpcode {w : Word} (hop : ¬ (1 ≤ w.toNat / 4096 ∧ w.toNat / 4096 ≤ 4)) :
    decode w = .error .illegalOpcode := by
  rw [decode_eq_checks, if_pos hop]

/-- A defined OP with a nonzero RSV raises RESERVED_NONZERO, whatever DATA holds. -/
theorem decode_rsv_ne_zero {w : Word} (hop : 1 ≤ w.toNat / 4096 ∧ w.toNat / 4096 ≤ 4) (hrsv : w.toNat / 256 % 16 ≠ 0) :
    decode w = .error .reservedNonzero := by
  rw [decode_eq_checks, if_neg (not_not.2 hop), if_pos hrsv]

/-- A nonzero DATA where the command takes no operand raises RESERVED_NONZERO. -/
theorem decode_data_ne_zero {w : Word} (hop : w.toNat / 4096 = 1 ∨ w.toNat / 4096 = 3 ∨ w.toNat / 4096 = 4)
    (hrsv : w.toNat / 256 % 16 = 0) (hdata : w.toNat % 256 ≠ 0) : decode w = .error .reservedNonzero := by
  rw [decode_eq_checks, if_neg (by omega), if_neg (not_not.2 hrsv), if_pos ⟨hop, hdata⟩]

/-- A word that passes every check selects the command of its OP. -/
theorem decode_run {w : Word} (hop : 1 ≤ w.toNat / 4096 ∧ w.toNat / 4096 ≤ 4) (hrsv : w.toNat / 256 % 16 = 0)
    (hdata : w.toNat / 4096 = 2 ∨ w.toNat % 256 = 0) :
    decode w =
      if w.toNat / 4096 = 1 then .run .init
      else if w.toNat / 4096 = 2 then .run (.absorb (BitVec.ofNat 8 (w.toNat % 256)))
      else if w.toNat / 4096 = 3 then .run .absorbStop
      else .run .squeeze := by
  rw [decode_eq_checks, if_neg (not_not.2 hop), if_neg (not_not.2 hrsv), if_neg (by omega)]

/-- Settles O2: the first three clauses are the three checks of decode in order, and the last four are the commands that
`decode_run` selects from a word that passes them. -/
theorem decodeChecksInOrder : Obligations.DecodeChecksInOrder := by
  unfold Obligations.DecodeChecksInOrder
  intro w
  refine ⟨fun hop => decode_illegalOpcode (by omega),
    fun ⟨hlo, hhi, hrsv⟩ => decode_rsv_ne_zero ⟨hlo, hhi⟩ hrsv,
    fun ⟨hop, hrsv, hdata⟩ => decode_data_ne_zero hop hrsv hdata,
    fun ⟨hop, hrsv, hdata⟩ => ?init, fun ⟨hop, hrsv⟩ => ?absorb,
    fun ⟨hop, hrsv, hdata⟩ => ?absorbStop, fun ⟨hop, hrsv, hdata⟩ => ?squeeze⟩
  case init => simp [decode_run (by omega) hrsv (.inr hdata), hop]
  case absorb => simp [decode_run (by omega) hrsv (.inl hop), hop]
  case absorbStop => simp [decode_run (by omega) hrsv (.inr hdata), hop]
  case squeeze => simp [decode_run (by omega) hrsv (.inr hdata), hop]

end Sys2Proof.Machine
end

section
/-! ### The response of every command and every CommandError (spec/30_encoding.md R80) -/

namespace Sys2Proof.Machine

/-- The STATUS code of a CommandError is never that of OK (spec/30_encoding.md R72). -/
theorem statusOf_ne_statusOk (e : CommandError) : statusOf e ≠ statusOk := by
  cases e <;> decide

/-- The STATUS and the DATA that a command ends with are the ones its response word holds. -/
theorem respond_status_data (s : State) (st d : Byte) :
    rspStatus (respond s st d).rsp = st ∧ rspData (respond s st d).rsp = d :=
  ⟨rspStatus_responseWord st d, rspData_responseWord st d⟩

/-- Settles O37: every meaning ends in one `respond`, and so does raising a CommandError, whose code is not OK. -/
theorem responseDataPerCommand : Obligations.ResponseDataPerCommand := by
  unfold Obligations.ResponseDataPerCommand
  refine ⟨fun s => ⟨_, exec_init s, respond_status_data _ _ _⟩, fun s b => ⟨_, exec_absorb b s, respond_status_data _ _ _⟩,
    fun s => ⟨_, exec_absorbStop s, respond_status_data _ _ _⟩, fun s => ⟨_, exec_squeeze s, respond_status_data _ _ _⟩,
    fun e s => ?_⟩
  obtain ⟨hstatus, hdata⟩ := respond_status_data s (statusOf e) 0x00
  exact ⟨fun h => statusOf_ne_statusOk e (hstatus.symm.trans h), hdata⟩

end Sys2Proof.Machine
end

section
/-! ### INIT, and the malformed words of the commands without an operand (spec/40_init.md R90, R91) -/

namespace Sys2Proof.Machine

/-- The response word of a command that answers OK with DATA 0x00. -/
theorem responseWord_statusOk_zero : responseWord statusOk 0x00 = 0x0000 := by decide

/-- The cipher state and the response that INIT leaves, from any state. -/
theorem exec_init_result (s : State) : ∃ t, exec .init s = .next t ∧ t.cipher = initState ∧
    t.rsp = 0x0000 ∧ t.rspValid = true ∧ t.ctl = .responding :=
  ⟨_, exec_init s, respond_cipher _ _ _, (respond_rsp _ _ _).trans responseWord_statusOk_zero,
    respond_rspValid _ _ _, respond_ctl _ _ _⟩

/-- INIT does not read the cipher state it is given. -/
theorem exec_init_ignores_cipher (s : State) (c : Cipher) : exec .init { s with cipher := c } = exec .init s :=
  (exec_init { s with cipher := c }).trans (exec_init s).symm

/-- Settles O16: the state after reset holds the cipher state that INIT leaves, by `exec_init_result`. -/
theorem initAndResetAgree : Obligations.InitAndResetAgree := by
  unfold Obligations.InitAndResetAgree
  intro s
  obtain ⟨t, hexec, hcipher, hrsp, hvalid, -⟩ := exec_init_result s
  exact ⟨t, hexec, hcipher.trans reset_cipher.symm, hvalid, hrsp, reset_rspValid⟩

/-- A command without an operand takes no bit below OP: with any of them set, decode raises RESERVED_NONZERO. -/
theorem decode_low_bits_ne_zero {w : Word} (hop : w.toNat / 4096 = 1 ∨ w.toNat / 4096 = 3 ∨ w.toNat / 4096 = 4)
    (hlow : w.toNat % 4096 ≠ 0) : decode w = .error .reservedNonzero := by
  by_cases hrsv : w.toNat / 256 % 16 = 0
  · exact decode_data_ne_zero hop hrsv (by omega)
  · exact decode_rsv_ne_zero (by omega) hrsv

/-- Of the words with INIT's OP only 0x1000 has no bit below OP set. -/
theorem low_bits_eq_zero_iff_init {w : Word} (hop : w.toNat / 4096 = 1) : w.toNat % 4096 = 0 ↔ w = 0x1000 := by
  rw [← BitVec.toNat_inj, show (0x1000 : Word).toNat = 4096 from rfl]
  omega

/-- What decode makes of a word with INIT's OP. -/
theorem decode_op_init {w : Word} (hop : w.toNat / 4096 = 1) :
    decode w = if w = 0x1000 then .run .init else .error .reservedNonzero := by
  split
  case isTrue hw => subst hw; decide
  case isFalse hw => exact decode_low_bits_ne_zero (.inl hop) (mt (low_bits_eq_zero_iff_init hop).1 hw)

/-- A word that raises a CommandError runs no command. -/
theorem runCommand_error {s : State} {e : CommandError} (h : decode s.cmd = .error e) :
    runCommand s = .next (raiseCommandError e s) := by
  simp [runCommand, h]

/-- The whole next state where RESERVED_NONZERO is raised. -/
theorem raiseCommandError_reservedNonzero (s : State) :
    raiseCommandError .reservedNonzero s = { s with rsp := 0x0200, rspValid := true, ctl := .responding } := rfl

/-- Settles O27: INIT's next state by `exec_init_result`, for the second INIT too, and that it forgets the old cipher state
by `exec_init_ignores_cipher`; the words with its OP by `decode_op_init`. -/
theorem initStartsASession : Obligations.InitStartsASession := by
  unfold Obligations.InitStartsASession
  refine ⟨fun s => ?session, fun w hop => ?words⟩
  case session =>
    obtain ⟨t, hexec, hcipher, hrsp, hvalid, hctl⟩ := exec_init_result s
    obtain ⟨u, hagain, hcipher', -⟩ := exec_init_result t
    refine ⟨t, hexec, ?_⟩
    rw [hcipher]
    exact ⟨memRead_nil, initState_i, initState_j, initState_k, initState_z, initState_a, initState_w,
      hrsp, hvalid, hctl, fun c => (exec_init_ignores_cipher s c).trans hexec, u, hagain, hcipher'⟩
  case words =>
    have hdecode := decode_op_init hop
    by_cases hw : w = 0x1000
    · rw [if_pos hw] at hdecode
      rw [hdecode]
      exact ⟨nofun, iff_of_true rfl hw, fun hne => absurd hw hne⟩
    · rw [if_neg hw] at hdecode
      refine ⟨by rw [hdecode]; nofun, by rw [hdecode]; exact iff_of_false nofun hw, fun _ s hcmd => ?_⟩
      rw [runCommand_error (hcmd ▸ hdecode), raiseCommandError_reservedNonzero]

end Sys2Proof.Machine
end

section
/-! ### Reads after SWAP and after UPDATE, on numbers mod 256 (spec/41_primitives.md R100, R101) -/

namespace Sys2Proof.Machine

/-- The sum of two bytes is the sum of their numbers mod 256 (spec/00_scope.md R9). -/
theorem ofNat_add_mod (x y : Byte) : BitVec.ofNat 8 ((x.toNat + y.toNat) % 256) = x + y :=
  byte_eq_of_toNat (by simp [BitVec.toNat_add])

/-- The sum of three bytes is the sum of their numbers mod 256. -/
theorem ofNat_add_add_mod (x y z : Byte) : BitVec.ofNat 8 ((x.toNat + y.toNat + z.toNat) % 256) = x + y + z :=
  byte_eq_of_toNat (by simp [BitVec.toNat_add])

@[simp] theorem exchanged_left (r : Byte → Byte) (x y : Byte) : exchanged r x y x = r y := if_pos rfl

@[simp] theorem exchanged_right (r : Byte → Byte) (x y : Byte) : exchanged r x y y = r x := by
  by_cases h : y = x <;> simp [exchanged, h]

theorem exchanged_other (r : Byte → Byte) {x y q : Byte} (hx : q ≠ x) (hy : q ≠ y) : exchanged r x y q = r q := by
  rw [exchanged, if_neg hx, if_neg hy]

/-- Exchanging an entry with itself changes no read. -/
theorem exchanged_self (r : Byte → Byte) (x q : Byte) : exchanged r x x q = r q := by
  by_cases h : q = x
  · rw [h, exchanged_left]
  · exact exchanged_other r h h

/-- SWAP exchanges the two entries. -/
theorem memRead_swap_exchanged (c : Cipher) (x y q : Byte) :
    memRead (swap c x y).P q = exchanged (memRead c.P) x y q := by
  rw [memRead_swap]
  by_cases hy : q = y
  · rw [if_pos hy, hy, exchanged_right]
  · rw [if_neg hy, exchanged, if_neg hy]

/-- UPDATE reads and writes P by its SWAP alone, at the new i and the new j. -/
theorem memRead_update_exchanged (c : Cipher) (q : Byte) :
    memRead (update c).P q = exchanged (memRead c.P) (update c).i (update c).j q :=
  memRead_swap_exchanged _ _ _ q

/-- Settles O20: the sums mod 256 are sums of bytes, so the new registers are the laws of `update`, and P is read by
`memRead_update_exchanged`; the example is evaluated. -/
theorem updateIsOneMicroStep : Obligations.UpdateIsOneMicroStep := by
  unfold Obligations.UpdateIsOneMicroStep
  refine ⟨fun c => ?microStep, by decide⟩
  case microStep =>
    simp only [ofNat_add_mod, ofNat_add_add_mod]
    refine ⟨update_i c, update_j c, update_k c, memRead_update_exchanged c, fun hij q => ?_,
      update_z c, update_a c, update_w c⟩
    have hij : (update c).i = (update c).j := hij
    rw [memRead_update_exchanged, hij, exchanged_self]

end Sys2Proof.Machine
end

section
/-! ### CRUSH, pair by pair (spec/41_primitives.md R104) -/

namespace Sys2Proof.Machine

theorem crushGreater_iff (g : Params) (x y : Byte) :
    crushGreater g x y = true ↔ if g.crushSignedCompare = true then x.toInt > y.toInt else x.toNat > y.toNat := by
  unfold crushGreater
  split <;> exact decide_eq_true_iff

/-- The address q belongs to the pair of v. -/
def InPair (v q : Byte) : Prop := q = v ∨ q = 255 - v

/-- The 128 pairs are disjoint. -/
theorem InPair.eq {u v q : Byte} (hu : u.toNat < 128) (hv : v.toNat < 128) (hqu : InPair u q) (hqv : InPair v q) :
    u = v := by
  rcases hqu with rfl | rfl <;> rcases hqv with h | h <;> bv_omega

/-- The 128 pairs cover the RAM. -/
theorem exists_inPair (q : Byte) : ∃ v : Byte, v.toNat < 128 ∧ InPair v q := by
  by_cases hq : q.toNat < 128
  · exact ⟨q, hq, .inl rfl⟩
  · exact ⟨255 - q, by bv_omega, .inr (by bv_omega)⟩

/-- The two entries of a pair after its comparison: exchanged if the lower address held the greater one. -/
theorem memRead_crushPair (g : Params) (c : Cipher) (v q : Byte) :
    memRead (crushPair g c v).P q =
      if crushGreater g (memRead c.P v) (memRead c.P (255 - v)) = true then exchanged (memRead c.P) v (255 - v) q
      else memRead c.P q := by
  rcases crushPair_cases g c v with ⟨hgt, h⟩ | ⟨hgt, h⟩
  · rw [h, hgt, if_pos rfl, memRead_swap_exchanged]
  · rw [h, hgt, if_neg nofun]

/-- A pair of crush leaves every address outside it alone. -/
theorem memRead_crushPair_other (g : Params) (c : Cipher) {v q : Byte} (hq : ¬ InPair v q) :
    memRead (crushPair g c v).P q = memRead c.P q := by
  obtain ⟨hlow, hhigh⟩ := not_or.mp hq
  rw [memRead_crushPair, exchanged_other _ hlow hhigh, ite_self]

/-- What a pair of crush leaves in its two entries depends on these two entries alone. -/
theorem memRead_crushPair_congr (g : Params) {c d : Cipher} {v q : Byte}
    (h : ∀ p, InPair v p → memRead c.P p = memRead d.P p) (hq : InPair v q) :
    memRead (crushPair g c v).P q = memRead (crushPair g d v).P q := by
  simp only [memRead_crushPair, exchanged, h v (.inl rfl), h (255 - v) (.inr rfl), h q hq]

/-- After the first n pairs of crush, the pair of v is as its own comparison leaves it if its turn has come, and as it was
otherwise. -/
theorem memRead_crushPairs (g : Params) (c : Cipher) {v : Byte} (hv : v.toNat < 128) {n : Nat} (hn : n ≤ 128) :
    ∀ q, InPair v q →
      memRead (crushPairs g n c).P q = if v.toNat < n then memRead (crushPair g c v).P q else memRead c.P q := by
  induction n with
  | zero => exact fun q _ => rfl
  | succ n ih =>
    intro q hq
    have ih := ih (by omega)
    have hnv : (BitVec.ofNat 8 n).toNat = n := Nat.mod_eq_of_lt (by omega)
    rw [crushPairs_succ]
    by_cases hturn : BitVec.ofNat 8 n = v
    · have hvn : v.toNat = n := by rw [← hturn, hnv]
      rw [hturn, if_pos (by omega)]
      exact memRead_crushPair_congr g (fun p hp => (ih p hp).trans (if_neg (by omega))) hq
    · have hvn : v.toNat ≠ n := fun h => hturn (by rw [← h, BitVec.ofNat_toNat, BitVec.setWidth_eq])
      rw [memRead_crushPair_other g _ fun hp => hturn (hp.eq (by omega) hv hq), ih q hq]
      simp only [Nat.lt_succ_iff_lt_or_eq, hvn, or_false]

/-- After CRUSH every pair is as its own comparison leaves it. -/
theorem memRead_crush (g : Params) (c : Cipher) {v q : Byte} (hv : v.toNat < 128) (hq : InPair v q) :
    memRead (crush g c).P q = memRead (crushPair g c v).P q := by
  rw [crush_eq_crushPairs, memRead_crushPairs g c hv le_rfl q hq, if_pos hv]

/-- A pair whose lower address holds the greater entry is exchanged by CRUSH. -/
theorem memRead_crush_of_greater {g : Params} {c : Cipher} {v : Byte} (hv : v.toNat < 128)
    (h : crushGreater g (memRead c.P v) (memRead c.P (255 - v)) = true) :
    memRead (crush g c).P v = memRead c.P (255 - v) ∧ memRead (crush g c).P (255 - v) = memRead c.P v := by
  rw [memRead_crush g c hv (.inl rfl), memRead_crush g c hv (.inr rfl), memRead_crushPair, memRead_crushPair,
    if_pos h, if_pos h]
  exact ⟨exchanged_left _ _ _, exchanged_right _ _ _⟩

/-- Every other pair is kept. -/
theorem memRead_crush_of_not_greater {g : Params} {c : Cipher} {v q : Byte} (hv : v.toNat < 128)
    (h : ¬ crushGreater g (memRead c.P v) (memRead c.P (255 - v)) = true) (hq : InPair v q) :
    memRead (crush g c).P q = memRead c.P q := by
  rw [memRead_crush g c hv hq, memRead_crushPair, if_neg h]

/-- Unsigned, the lower entry is the greater one exactly if its number is. -/
theorem crushGreater_unsigned {g : Params} (hg : g.crushSignedCompare = false) (x y : Byte) :
    crushGreater g x y = true ↔ x.toNat > y.toNat := by
  simp [crushGreater_iff, hg]

/-- On the identity no pair is exchanged. -/
theorem memRead_crush_identity {g : Params} (hg : g.crushSignedCompare = false) {c : Cipher}
    (hc : ∀ x : Byte, memRead c.P x = x) (x : Byte) : memRead (crush g c).P x = x := by
  obtain ⟨v, hv, hx⟩ := exists_inPair x
  have hle : ¬ crushGreater g (memRead c.P v) (memRead c.P (255 - v)) = true := by
    rw [crushGreater_unsigned hg, hc, hc]; bv_omega
  rw [memRead_crush_of_not_greater hv hle hx, hc]

/-- On the reversed permutation every pair is exchanged. -/
theorem memRead_crush_reversed {g : Params} (hg : g.crushSignedCompare = false) {c : Cipher}
    (hc : ∀ x : Byte, memRead c.P x = 255 - x) (x : Byte) : memRead (crush g c).P x = x := by
  obtain ⟨v, hv, hx⟩ := exists_inPair x
  have hgt : crushGreater g (memRead c.P v) (memRead c.P (255 - v)) = true := by
    rw [crushGreater_unsigned hg, hc, hc]; bv_omega
  obtain ⟨hlow, hhigh⟩ := memRead_crush_of_greater hv hgt
  rcases hx with rfl | rfl
  · rw [hlow, hc]; bv_omega
  · rw [hhigh, hc]

/-- Settles O23: each pair by `memRead_crush_of_greater` and `memRead_crush_of_not_greater`, which rest on the pairs being
disjoint; the identity and the reversed permutation are the cases where no pair and every pair is exchanged. -/
theorem crushOrdersEachPair : Obligations.CrushOrdersEachPair := by
  unfold Obligations.CrushOrdersEachPair
  refine ⟨fun g c v hv => ?_, fun g c => crushPairs_registers g 128 c, fun g c hg hc => memRead_crush_identity hg hc,
    fun g c hg hc => memRead_crush_reversed hg hc⟩
  simp only [← crushGreater_iff]
  exact ⟨memRead_crush_of_greater hv, fun h =>
    ⟨memRead_crush_of_not_greater hv h (.inl rfl), memRead_crush_of_not_greater hv h (.inr rfl)⟩⟩

end Sys2Proof.Machine
end

section
/-! ### ODD_FIX: neither loop runs its body more than twice (spec/41_primitives.md R102) -/

namespace Sys2Proof.Machine

theorem coprimeTo256_iff_gcd (w : Byte) : coprimeTo256 w = true ↔ Nat.gcd w.toNat 256 = 1 := beq_iff_eq

theorem gcd_256_eq_one_iff_odd (w : Byte) : Nat.gcd w.toNat 256 = 1 ↔ w.toNat % 2 = 1 :=
  (coprimeTo256_iff_gcd w).symm.trans (coprimeTo256_iff w)

/-- Of two bytes in a row one is odd. -/
theorem coprimeTo256_add_one {w : Byte} (h : ¬ coprimeTo256 w = true) : coprimeTo256 (w + 1) = true := by
  rw [coprimeTo256_iff] at h ⊢
  bv_omega

/-- Increment first: the first stride after w that is coprime with 256. -/
theorem repeatUntilCoprime_eq (fuel : Nat) (w : Byte) :
    repeatUntilCoprime (fuel + 2) w = if coprimeTo256 (w + 1) = true then w + 1 else w + 2 := by
  rw [repeatUntilCoprime]
  split
  case isTrue => rfl
  case isFalse h => rw [repeatUntilCoprime, if_pos (coprimeTo256_add_one h), BitVec.add_assoc]; rfl

/-- Test first: the first stride from w on that is coprime with 256. -/
theorem whileNotCoprime_eq (fuel : Nat) (w : Byte) :
    whileNotCoprime (fuel + 2) w = if coprimeTo256 w = true then w else w + 1 := by
  rw [whileNotCoprime]
  split
  case isTrue => rfl
  case isFalse h => rw [whileNotCoprime, if_pos (coprimeTo256_add_one h)]

/-- Settles O21: both loops end by their second round, by `repeatUntilCoprime_eq` and `whileNotCoprime_eq`; the stride they
leave is odd, which is coprime with 256. -/
theorem oddFixLeavesAnOddStride : Obligations.OddFixLeavesAnOddStride := by
  unfold Obligations.OddFixLeavesAnOddStride
  refine ⟨gcd_256_eq_one_iff_odd, fun g c => ⟨rfl, (gcd_256_eq_one_iff_odd _).2 (oddFixStride_odd g c.w)⟩,
    fun g c hg => ?incrementFirst, fun g c hg hw => ?odd, fun g c hg => ?testFirst, Nat.gcd_zero_left 256⟩
  case incrementFirst =>
    rw [oddFix_w, oddFixStride, if_pos hg, repeatUntilCoprime_eq 254]
    simp only [coprimeTo256_iff_gcd]
  case odd =>
    rw [oddFix_w, oddFixStride_first hg hw, BitVec.toNat_add]
    rfl
  case testFirst =>
    rw [oddFix_w, oddFixStride, hg, if_neg nofun, whileNotCoprime_eq 254]
    simp only [coprimeTo256_iff_gcd]

end Sys2Proof.Machine
end

section
/-! ### ABSORB_NIBBLE: the SHUFFLE it begins with, its exchange, its count (spec/42_absorb.md R120) -/

namespace Sys2Proof.Machine

theorem shuffleIfFull_of_full (g : Params) {c : Cipher} (h : c.a = 128) : shuffleIfFull g c = shuffle g c := if_pos h

theorem shuffleIfFull_of_ne (g : Params) {c : Cipher} (h : c.a ≠ 128) : shuffleIfFull g c = c := if_neg h

/-- Once ABSORB_NIBBLE has begun, the counter has room for one more nibble. -/
theorem shuffleIfFull_a_le (g : Params) {c : Cipher} (h : c.a.toNat ≤ 128) : (shuffleIfFull g c).a.toNat ≤ 127 := by
  rcases shuffleIfFull_cases g c with ⟨-, e⟩ | ⟨hne, e⟩ <;> rw [e]
  · simp
  · bv_omega

@[simp] theorem absorbNibble_a (g : Params) (c : Cipher) (x : BitVec 4) :
    (absorbNibble g c x).a = (shuffleIfFull g c).a + 1 := rfl
@[simp] theorem absorbNibble_j (g : Params) (c : Cipher) (x : BitVec 4) :
    (absorbNibble g c x).j = (shuffleIfFull g c).j := rfl
@[simp] theorem absorbNibble_k (g : Params) (c : Cipher) (x : BitVec 4) :
    (absorbNibble g c x).k = (shuffleIfFull g c).k := rfl
@[simp] theorem absorbNibble_w (g : Params) (c : Cipher) (x : BitVec 4) :
    (absorbNibble g c x).w = (shuffleIfFull g c).w := rfl

/-- After its beginning, ABSORB_NIBBLE exchanges the entries at the counter and at the nibble's address. -/
theorem memRead_absorbNibble_exchanged (g : Params) (c : Cipher) (x : BitVec 4) (q : Byte) :
    memRead (absorbNibble g c x).P q =
      exchanged (memRead (shuffleIfFull g c).P) (shuffleIfFull g c).a (nibbleAddress x) q :=
  memRead_swap_exchanged _ _ _ q

theorem nibbleAddress_eq_ofNat (x : BitVec 4) : nibbleAddress x = BitVec.ofNat 8 (128 + x.toNat) := by
  rw [← nibbleAddress_toNat, BitVec.ofNat_toNat, BitVec.setWidth_eq]

/-- A counter below 128 never points at an entry that a nibble selects. -/
theorem ne_nibbleAddress {a : Byte} (h : a.toNat ≤ 127) (x : BitVec 4) : a ≠ nibbleAddress x := by
  rintro rfl
  rw [nibbleAddress_toNat] at h
  omega

/-- Settles O26: the state that ABSORB_NIBBLE swaps in is `shuffleIfFull`, whose counter is at most 127 by
`shuffleIfFull_a_le`; the example is evaluated. -/
theorem nibbleSwapsAtTheCounter : Obligations.NibbleSwapsAtTheCounter := by
  unfold Obligations.NibbleSwapsAtTheCounter
  refine ⟨fun g c x => ?_, by decide⟩
  simp only [← nibbleAddress_eq_ofNat]
  refine ⟨shuffleIfFull g c, shuffleIfFull_of_full g, shuffleIfFull_of_ne g, memRead_absorbNibble_exchanged g c x,
    BitVec.toNat_add _ _, by simp, absorbNibble_j g c x, absorbNibble_k g c x, by simp, absorbNibble_w g c x, fun h => ?_⟩
  have ha := shuffleIfFull_a_le g h
  have hcount := absorbNibble_a g c x
  exact ⟨ha, ne_nibbleAddress ha x, by bv_omega, by bv_omega⟩

end Sys2Proof.Machine
end

section
/-! ### ABSORB_STOP (spec/42_absorb.md R125) -/

namespace Sys2Proof.Machine

/-- What a command that answers OK with DATA 0x00 leaves pending. -/
theorem respond_ok_zero (s : State) : (respond s statusOk 0x00).rsp = 0x0000 ∧
    (respond s statusOk 0x00).rspValid = true ∧ (respond s statusOk 0x00).ctl = .responding :=
  ⟨(respond_rsp _ _ _).trans responseWord_statusOk_zero, respond_rspValid _ _ _, respond_ctl _ _ _⟩

/-- The cipher state and the response that ABSORB_STOP leaves, from any state. -/
theorem exec_absorbStop_result (s : State) : ∃ t, exec .absorbStop s = .next t ∧
    t.cipher = absorbMarker Config.thisHardware s.cipher ∧ t.rsp = 0x0000 ∧ t.rspValid = true ∧ t.ctl = .responding :=
  ⟨_, exec_absorbStop s, respond_cipher _ _ _, respond_ok_zero _⟩

theorem absorbMarker_of_ne (g : Params) {c : Cipher} (h : c.a ≠ 128) : absorbMarker g c = { c with a := c.a + 1 } :=
  if_neg h

/-- At the threshold the source's marker is a SHUFFLE and counts nothing. -/
theorem absorbMarker_of_full {g : Params} (hg : g.stopIncrementAfterShuffle = false) {c : Cipher} (h : c.a = 128) :
    absorbMarker g c = shuffle g c := by
  rcases absorbMarker_cases g c with ⟨-, e⟩ | ⟨hne, -⟩
  · rw [e, hg, if_neg nofun]
  · exact absurd h hne

/-- At the threshold the alternative marker counts one after the SHUFFLE. -/
theorem absorbMarker_of_full_increment {g : Params} (hg : g.stopIncrementAfterShuffle = true) {c : Cipher}
    (h : c.a = 128) : absorbMarker g c = { shuffle g c with a := 1 } := by
  rcases absorbMarker_cases g c with ⟨-, e⟩ | ⟨hne, -⟩
  · rw [e, if_pos hg, shuffle_a]
    rfl
  · exact absurd h hne

/-- A word with ABSORB_STOP's OP that is not its encoding raises RESERVED_NONZERO. -/
theorem decode_op_absorbStop_ne {w : Word} (hop : w.toNat / 4096 = 3) (hw : w ≠ 0x3000) :
    decode w = .error .reservedNonzero := by
  refine decode_low_bits_ne_zero (.inr (.inl hop)) fun hlow => hw ?_
  rw [← BitVec.toNat_inj, show (0x3000 : Word).toNat = 12288 from rfl]
  omega

/-- Settles O33: the two branches of the marker by `absorbMarker_of_full` and `absorbMarker_of_ne`, the second one twice
from a = 5; the malformed words by `decode_op_absorbStop_ne`. -/
theorem absorbStopMarks : Obligations.AbsorbStopMarks := by
  unfold Obligations.AbsorbStopMarks
  refine ⟨fun s => ?marks, fun s h5 => ?twice, fun g c hg h => absorbMarker_of_full_increment hg (byte_eq_of_toNat h),
    fun s hop hw => ?malformed⟩
  case marks =>
    obtain ⟨t, hexec, hcipher, hresponse⟩ := exec_absorbStop_result s
    refine ⟨t, hexec, fun h => ?_, fun h => ?_, hresponse⟩
    · have hfull := hcipher.trans (absorbMarker_of_full rfl (byte_eq_of_toNat h))
      exact ⟨hfull, hfull ▸ shuffle_a _ _⟩
    · rw [hcipher, absorbMarker_of_ne _ (ne_of_apply_ne BitVec.toNat h)]
      exact congrArg (fun a => { s.cipher with a := a }) (ofNat_add_mod s.cipher.a 1).symm
  case twice =>
    have ha : s.cipher.a = 5 := byte_eq_of_toNat h5
    obtain ⟨t, hexec, hcipher, -⟩ := exec_absorbStop_result s
    obtain ⟨u, hexec', hcipher', -⟩ := exec_absorbStop_result t
    refine ⟨t, u, hexec, hexec', ?_⟩
    have hfirst : absorbMarker Config.thisHardware s.cipher = { s.cipher with a := 6 } := by
      rw [absorbMarker_of_ne _ (by rw [ha]; decide), ha]; rfl
    have hsecond : absorbMarker Config.thisHardware { s.cipher with a := 6 } = { s.cipher with a := 7 } :=
      absorbMarker_of_ne _ (show (6 : Byte) ≠ 128 by decide)
    rw [hcipher', hcipher, hfirst, hsecond]
  case malformed =>
    rw [runCommand_error (decode_op_absorbStop_ne hop hw), raiseCommandError_reservedNonzero]

end Sys2Proof.Machine
end

section
/-! ### ABSORB, its two nibbles in order (spec/42_absorb.md R121, R122) -/

namespace Sys2Proof.Machine

/-- The cipher state and the response that ABSORB b leaves, from any state. -/
theorem exec_absorb_result (b : Byte) (s : State) : ∃ t, exec (.absorb b) s = .next t ∧
    t.cipher = absorbByte Config.thisHardware s.cipher b ∧ t.rsp = 0x0000 ∧ t.rspValid = true ∧ t.ctl = .responding :=
  ⟨_, exec_absorb b s, respond_cipher _ _ _, respond_ok_zero _⟩

theorem lowNibble_eq_ofNat (b : Byte) : lowNibble b = BitVec.ofNat 4 (b.toNat % 16) := by
  rw [← lowNibble_toNat, BitVec.ofNat_toNat, BitVec.setWidth_eq]

theorem highNibble_eq_ofNat (b : Byte) : highNibble b = BitVec.ofNat 4 (b.toNat / 16) := by
  rw [← highNibble_toNat, BitVec.ofNat_toNat, BitVec.setWidth_eq]

/-- A nibble fills the counter exactly from 127: from 128 it begins with a SHUFFLE and leaves 1. -/
theorem absorbNibble_a_eq_128_iff (g : Params) (c : Cipher) (x : BitVec 4) :
    (absorbNibble g c x).a.toNat = 128 ↔ c.a.toNat = 127 := by
  rw [absorbNibble_a]
  rcases shuffleIfFull_cases g c with ⟨hfull, e⟩ | ⟨-, e⟩ <;> rw [e]
  · simp [hfull]
  · bv_omega

/-- What decode makes of a word with ABSORB's OP: every DATA is legal. -/
theorem decode_op_absorb {w : Word} (hop : w.toNat / 4096 = 2) :
    decode w = if w.toNat / 256 % 16 = 0 then .run (.absorb (BitVec.ofNat 8 (w.toNat % 256)))
      else .error .reservedNonzero := by
  split
  case isTrue hrsv => simp [decode_run (by omega) hrsv (.inl hop), hop]
  case isFalse hrsv => exact decode_rsv_ne_zero (by omega) hrsv

/-- The entries after an ABSORB that runs no SHUFFLE: the low nibble's exchange at a, then the high nibble's at a + 1. -/
theorem memRead_absorbByte_exchanged (g : Params) {c : Cipher} (h127 : c.a.toNat ≠ 127) (h128 : c.a.toNat ≠ 128)
    (b q : Byte) :
    memRead (absorbByte g c b).P q =
      exchanged (exchanged (memRead c.P) c.a (nibbleAddress (lowNibble b))) (c.a + 1) (nibbleAddress (highNibble b)) q := by
  have hlow : shuffleIfFull g c = c := shuffleIfFull_of_ne g (ne_of_apply_ne BitVec.toNat h128)
  have hhigh : shuffleIfFull g (absorbNibble g c (lowNibble b)) = absorbNibble g c (lowNibble b) :=
    shuffleIfFull_of_ne g (ne_of_apply_ne BitVec.toNat (mt (absorbNibble_a_eq_128_iff g c _).1 h127))
  have hread : memRead (absorbNibble g c (lowNibble b)).P = exchanged (memRead c.P) c.a (nibbleAddress (lowNibble b)) := by
    funext p
    rw [memRead_absorbNibble_exchanged, hlow]
  rw [absorbByte, memRead_absorbNibble_exchanged, hhigh, hread, absorbNibble_a, hlow]

/-- Settles O29: the next state by `exec_absorb_result`, with the nibbles as numbers and where the counter fills by
`absorbNibble_a_eq_128_iff`; the words by `decode_op_absorb`; the exchanges of 0x00 by `memRead_absorbByte_exchanged`; the
sample is evaluated. -/
theorem absorbIsTwoNibbles : Obligations.AbsorbIsTwoNibbles := by
  unfold Obligations.AbsorbIsTwoNibbles
  refine ⟨fun s b => ?nibbles, fun w hop => ?words, fun s hs => ?sample, fun s ha => ?zero⟩
  case nibbles =>
    obtain ⟨t, hexec, hcipher, hresponse⟩ := exec_absorb_result b s
    rw [← lowNibble_eq_ofNat, ← highNibble_eq_ofNat]
    exact ⟨t, hexec, ⟨hcipher, (absorbNibble_a_eq_128_iff _ _ _).symm⟩, hresponse⟩
  case words =>
    have hdecode := decode_op_absorb hop
    refine ⟨fun hrsv => hdecode.trans (if_pos hrsv), fun hrsv s hcmd => ?_⟩
    rw [if_neg hrsv, ← hcmd] at hdecode
    rw [runCommand_error hdecode, raiseCommandError_reservedNonzero]
  case sample =>
    obtain ⟨t, hexec, hcipher, hrsp, -⟩ := exec_absorb_result 0x41 s
    refine ⟨t, hexec, hrsp, ?_⟩
    rw [hcipher, hs]
    decide
  case zero =>
    obtain ⟨t, hexec, hcipher, -⟩ := exec_absorb_result 0x00 s
    refine ⟨t, hexec, fun q => ?_⟩
    rw [hcipher, memRead_absorbByte_exchanged _ (by omega) (by omega)]
    rfl

end Sys2Proof.Machine
end

section
/-! ### Sequences of ABSORBs at the transaction level (spec/42_absorb.md R123) -/

namespace Sys2Proof.Machine

/-- The word of an ABSORB selects it with its operand whole. -/
theorem decode_encode_absorb (b : Byte) : decode (encode (.absorb b)) = .run (.absorb b) := by
  have hw : (encode (.absorb b)).toNat = 8192 + b.toNat := assembleWord_toNat 0x2 0x0 b
  have hb := b.isLt
  have hdata : BitVec.ofNat 8 ((encode (.absorb b)).toNat % 256) = b := by
    exact byte_eq_of_toNat (by rw [BitVec.toNat_ofNat]; omega)
  rw [decode_op_absorb (by omega), if_pos (by omega), hdata]

/-- The word of every command selects it. -/
theorem decode_encode (i : Instr) : decode (encode i) = .run i := by
  cases i with
  | init => decide
  | absorb b => exact decode_encode_absorb b
  | absorbStop => decide
  | squeeze => decide

theorem transact_absorb (g : Params) (c : Cipher) (b : Byte) :
    transact g c (encode (.absorb b)) = (absorbByte g c b, 0x0000) := by
  simp only [transact, decode_encode, responseWord_statusOk_zero]

theorem transactAll_cons (g : Params) (c : Cipher) (w : Word) (ws : List Word) :
    transactAll g c (w :: ws) =
      ((transactAll g (transact g c w).1 ws).1, (transact g c w).2 :: (transactAll g (transact g c w).1 ws).2) := rfl

/-- ABSORBs one after another absorb their bytes in order, each answered 0x0000. -/
theorem transactAll_absorbs (g : Params) (c : Cipher) (bs : List Byte) :
    transactAll g c (bs.map fun b => encode (.absorb b)) =
      (bs.foldl (absorbByte g) c, List.replicate bs.length 0x0000) := by
  induction bs generalizing c with
  | nil => rfl
  | cons b bs ih => rw [List.map_cons, transactAll_cons, transact_absorb, ih]; rfl

/-- The words of an ABSORBS line are those of its bytes' ABSORBs. -/
theorem encode_absorbs (bs : List Literal) :
    (expandLine (.absorbs bs)).map encode = (bs.map literalByte).map fun b => encode (.absorb b) := by
  simp [expandLine, absorbsOf]

/-- Settles O40: an ABSORBS line is its bytes' ABSORBs by `encode_absorbs`, and these run as `transactAll_absorbs` says. -/
theorem absorbingASequence : Obligations.AbsorbingASequence := by
  unfold Obligations.AbsorbingASequence
  intro g c bs
  rw [encode_absorbs, transactAll_absorbs, List.length_map]
  exact ⟨rfl, rfl⟩

end Sys2Proof.Machine
end

section
/-! ### The absorption boundary (spec/42_absorb.md R124) -/

namespace Sys2Proof.Machine

/-- From c to d the counter advances by n and no SHUFFLE has run: every other index register is as it was. -/
structure CountsUp (n : Nat) (c d : Cipher) : Prop where
  a : d.a.toNat = c.a.toNat + n
  i : d.i = c.i
  j : d.j = c.j
  k : d.k = c.k
  z : d.z = c.z
  w : d.w = c.w

theorem CountsUp.refl (c : Cipher) : CountsUp 0 c c := ⟨rfl, rfl, rfl, rfl, rfl, rfl⟩

theorem CountsUp.trans {n m : Nat} {c d e : Cipher} (h : CountsUp n c d) (h' : CountsUp m d e) : CountsUp (n + m) c e :=
  { a := by rw [h'.a, h.a, Nat.add_assoc]
    i := h'.i.trans h.i
    j := h'.j.trans h.j
    k := h'.k.trans h.k
    z := h'.z.trans h.z
    w := h'.w.trans h.w }

/-- An increment below the threshold does not wrap. -/
theorem toNat_succ_of_lt_128 {a : Byte} (h : a.toNat < 128) : (a + 1).toNat = a.toNat + 1 := by bv_omega

theorem ne_128_of_lt {a : Byte} (h : a.toNat < 128) : a ≠ 128 := ne_of_apply_ne BitVec.toNat (Nat.ne_of_lt h)

theorem absorbNibble_countsUp (g : Params) {c : Cipher} (h : c.a.toNat < 128) (x : BitVec 4) :
    CountsUp 1 c (absorbNibble g c x) := by
  have hkept := shuffleIfFull_of_ne g (ne_128_of_lt h)
  rw [absorbNibble_eq, hkept]
  exact ⟨toNat_succ_of_lt_128 h, rfl, rfl, rfl, rfl, rfl⟩

theorem absorbByte_countsUp (g : Params) {c : Cipher} (h : c.a.toNat + 2 ≤ 128) (b : Byte) :
    CountsUp 2 c (absorbByte g c b) := by
  have hlow := absorbNibble_countsUp g (by omega) (lowNibble b) (c := c)
  exact hlow.trans (absorbNibble_countsUp g (by rw [hlow.a]; omega) (highNibble b))

theorem absorbMarker_countsUp (g : Params) {c : Cipher} (h : c.a.toNat < 128) : CountsUp 1 c (absorbMarker g c) := by
  rw [absorbMarker_of_ne g (ne_128_of_lt h)]
  exact ⟨toNat_succ_of_lt_128 h, rfl, rfl, rfl, rfl, rfl⟩

theorem transact_absorbStop (g : Params) (c : Cipher) :
    transact g c (encode .absorbStop) = (absorbMarker g c, 0x0000) := by
  simp only [transact, decode_encode, responseWord_statusOk_zero]

theorem transact_squeeze_cipher (g : Params) (c : Cipher) : (transact g c (encode .squeeze)).1 = squeezeByte g c := by
  simp only [transact, decode_encode]

/-- An absorption that does not pass the threshold counts its nibbles and markers. -/
theorem transact_countsUp (g : Params) {c : Cipher} {i : Instr} (hi : isAbsorption i = true)
    (h : c.a.toNat + absorbCount i ≤ 128) : CountsUp (absorbCount i) c (transact g c (encode i)).1 := by
  cases i with
  | init => cases hi
  | absorb b => rw [transact_absorb]; exact absorbByte_countsUp g h b
  | absorbStop => rw [transact_absorbStop]; exact absorbMarker_countsUp g h
  | squeeze => cases hi

/-- Any mix of absorptions that does not pass the threshold counts its nibbles and markers. -/
theorem transactAll_countsUp (g : Params) {c : Cipher} {is : List Instr} (his : is.all isAbsorption = true)
    (h : c.a.toNat + (is.map absorbCount).sum ≤ 128) :
    CountsUp (is.map absorbCount).sum c (transactAll g c (is.map encode)).1 := by
  induction is generalizing c with
  | nil => exact .refl c
  | cons i is ih =>
    obtain ⟨hi, his⟩ := Bool.and_eq_true_iff.1 his
    rw [List.map_cons, List.sum_cons] at h ⊢
    have hfirst := transact_countsUp g hi (c := c) (by omega)
    exact hfirst.trans (ih his (by rw [hfirst.a]; omega))

/-- ABSORBs that do not pass the threshold count two nibbles for each byte. -/
theorem transactAll_absorbs_countsUp (g : Params) {c : Cipher} {bs : List Byte} (h : c.a.toNat + bs.length * 2 ≤ 128) :
    CountsUp (bs.length * 2) c (transactAll g c (bs.map fun b => encode (.absorb b))).1 := by
  have hcount : ((bs.map Instr.absorb).map absorbCount).sum = bs.length * 2 := by
    simp [Function.comp_def, absorbCount]
  have hrun := transactAll_countsUp g (c := c) (is := bs.map .absorb) (by simp [isAbsorption]) (by rw [hcount]; exact h)
  rwa [hcount, List.map_map] at hrun

/-- At the threshold a nibble is the nibble from the shuffled state. -/
theorem absorbNibble_of_full (g : Params) {c : Cipher} (h : c.a = 128) (x : BitVec 4) :
    absorbNibble g c x = absorbNibble g (shuffle g c) x := by
  have hkept : shuffleIfFull g (shuffle g c) = shuffle g c := shuffleIfFull_of_ne g (by rw [shuffle_a]; decide)
  rw [absorbNibble_eq, shuffleIfFull_of_full g h, absorbNibble_eq, hkept]

/-- From the threshold an ABSORB leaves the two nibbles it absorbs after the SHUFFLE. -/
theorem absorbByte_a_of_full (g : Params) {c : Cipher} (h : c.a = 128) (b : Byte) : (absorbByte g c b).a = 2 := by
  have hcount := (absorbByte_countsUp g (c := shuffle g c) (by simp) b).a
  rw [absorbByte, absorbNibble_of_full g h]
  exact byte_eq_of_toNat (hcount.trans (by simp))

theorem squeezeByte_w_of_pending (g : Params) {c : Cipher} (h : c.a ≠ 0) : (squeezeByte g c).w = (shuffle g c).w := by
  rw [squeezeByte_eq, update_w, shuffleIfPending, if_pos h]

/-- Settles O39: the counting is `transactAll_countsUp`, an induction over the commands; 64 ABSORBs then stand at the
threshold, from where each of the three commands begins with SHUFFLE. -/
theorem absorptionBoundary : Obligations.AbsorptionBoundary := by
  unfold Obligations.AbsorptionBoundary
  refine ⟨fun c is ha his hsum => ?mix, fun c bs b ha hlen => ?bytes⟩
  case mix =>
    have ha : c.a.toNat = 0 := congrArg BitVec.toNat ha
    obtain ⟨hcount, hi, hj, hk, hz, hw⟩ := transactAll_countsUp Config.thisHardware his (c := c) (by omega)
    exact ⟨by omega, hi, hj, hk, hz, hw⟩
  case bytes =>
    have ha : c.a.toNat = 0 := congrArg BitVec.toNat ha
    have hrun := transactAll_absorbs_countsUp Config.thisHardware (c := c) (bs := bs) (by omega)
    generalize (transactAll Config.thisHardware c (bs.map fun b => encode (.absorb b))).1 = d at hrun ⊢
    have hd : d.a = 128 := byte_eq_of_toNat (hrun.a.trans (by rw [ha, hlen]; rfl))
    dsimp only
    rw [transact_absorb, transact_absorbStop, transact_squeeze_cipher]
    exact ⟨hd, hrun.w, by simp [runsShuffle, hd], by simp [runsShuffle, hd], by simp [runsShuffle, hd],
      absorbNibble_of_full _ hd _, absorbByte_a_of_full _ hd b, absorbMarker_of_full rfl hd,
      squeezeByte_w_of_pending _ (by rw [hd]; decide)⟩

end Sys2Proof.Machine
end

section
/-! ### A run with `rst` 0, as the transactions it has accepted and those it has answered (spec/00_scope.md R14) -/

namespace Sys2Proof.Machine

/-- No reset sequence runs, and `rsp_valid` is 1 exactly in RESPONDING (spec/10_state.md R36). -/
structure Serving (s : State) : Prop where
  notResetting : s.ctl ≠ .resetting
  pendingIff : s.rspValid = true ↔ s.ctl = .responding

/-- What the block still owes from s where the words ws are accepted next: the cipher state after all of them, and the
responses still to be delivered. In BUSY the word in CMD comes before ws, in RESPONDING its response does. -/
def owed (s : State) (ws : List Word) : Cipher × List Word :=
  match s.ctl with
  | .busy => transactAll Config.thisHardware s.cipher (s.cmd :: ws)
  | .responding =>
    ((transactAll Config.thisHardware s.cipher ws).1, s.rsp :: (transactAll Config.thisHardware s.cipher ws).2)
  | _ => transactAll Config.thisHardware s.cipher ws

theorem owed_idle {s : State} (h : s.ctl = .idle) (ws : List Word) :
    owed s ws = transactAll Config.thisHardware s.cipher ws := by
  simp only [owed, h]

theorem owed_busy {s : State} (h : s.ctl = .busy) (ws : List Word) :
    owed s ws = transactAll Config.thisHardware s.cipher (s.cmd :: ws) := by
  simp only [owed, h]

theorem owed_responding {s : State} (h : s.ctl = .responding) (ws : List Word) :
    owed s ws =
      ((transactAll Config.thisHardware s.cipher ws).1, s.rsp :: (transactAll Config.thisHardware s.cipher ws).2) := by
  simp only [owed, h]

/-! What transfers at an edge with `rst` 0, in each controller state. -/

theorem acceptedNext_of_not_idle {s : State} (h : s.ctl ≠ .idle) : acceptedNext s = none := by
  simp [acceptedNext, cmdReady, h]

theorem acceptedNext_idle {s : State} (hr : (nextPins s).rst = false) (h : s.ctl = .idle) :
    acceptedNext s = if (nextPins s).cmdValid then some (nextPins s).cmdData else none := by
  simp [acceptedNext, cmdReady, hr, h]

theorem deliveredNext_of_not_pending {s : State} (h : s.rspValid = false) : deliveredNext s = none := by
  simp [deliveredNext, h]

theorem deliveredNext_pending {s : State} (hr : (nextPins s).rst = false) (h : s.rspValid = true) :
    deliveredNext s = if (nextPins s).rspReady then some s.rsp else none := by
  simp [deliveredNext, hr, h]

theorem Serving.deliveredNext_eq_none {s : State} (hs : Serving s) (h : s.ctl ≠ .responding) :
    deliveredNext s = none :=
  deliveredNext_of_not_pending (Bool.eq_false_iff.2 (mt hs.pendingIff.1 h))

/-- Every step takes one sample of the inputs. -/
theorem StepCase.pins_eq {s t : State} (h : StepCase s t) : t.pins = s.pins.tail := by
  cases h <;> rfl

/-- A step with `rst` 0 keeps `Serving`. -/
theorem StepCase.serving {s t : State} (h : StepCase s t) (hr : (nextPins s).rst = false) (hs : Serving s) :
    Serving t := by
  obtain ⟨hne, hpend⟩ := hs
  cases h with
  | reset h => exact absurd (hr.symm.trans h) nofun
  | wait n h hc hw => exact ⟨hne, hpend⟩
  | resetEnds h hc hw => exact absurd hc hne
  | accept h hc hv => exact ⟨nofun, iff_of_false (mt hpend.1 (by simp [hc])) nofun⟩
  | idle h hc hv => exact ⟨hne, hpend⟩
  | run h hc hw => exact ⟨nofun, iff_of_true rfl rfl⟩
  | deliver h hc hv => exact ⟨nofun, iff_of_false nofun nofun⟩
  | hold h hc hv => exact ⟨hne, hpend⟩

/-- One step with `rst` 0: what is owed before it is what the step delivers and what is owed after it. -/
theorem StepCase.owed_eq {s t : State} (h : StepCase s t) (hr : (nextPins s).rst = false) (hs : Serving s)
    (ws : List Word) :
    owed s ((acceptedNext s).toList ++ ws) = ((owed t ws).1, (deliveredNext s).toList ++ (owed t ws).2) := by
  cases h with
  | reset h => exact absurd (hr.symm.trans h) nofun
  | resetEnds h hc hw => exact absurd hc hs.notResetting
  | wait n h hc hw =>
    have hbusy : s.ctl = .busy := hc.resolve_left hs.notResetting
    rw [acceptedNext_of_not_idle (by simp [hbusy]), hs.deliveredNext_eq_none (by simp [hbusy])]
    rfl
  | accept h hc hv =>
    rw [acceptedNext_idle hr hc, if_pos hv, hs.deliveredNext_eq_none (by simp [hc]), owed_idle hc]
    rfl
  | idle h hc hv =>
    rw [acceptedNext_idle hr hc, hv, hs.deliveredNext_eq_none (by simp [hc])]
    rfl
  | run h hc hw =>
    rw [acceptedNext_of_not_idle (by simp [hc]), hs.deliveredNext_eq_none (by simp [hc]), owed_busy hc]
    rfl
  | deliver h hc hv =>
    rw [acceptedNext_of_not_idle (by simp [hc]), deliveredNext_pending hr (hs.pendingIff.2 hc), if_pos hv,
      owed_responding hc]
    rfl
  | hold h hc hv =>
    rw [acceptedNext_of_not_idle (by simp [hc]), deliveredNext_pending hr (hs.pendingIff.2 hc), hv]
    rfl

/-- Over any run with `rst` 0: what is owed before it, for the words it accepts, is what it delivers and what is owed at its
end. -/
theorem traceOf_owed {n : Nat} {s : State} {r : Trace} (hs : Serving s) (hr : noResetFor n s = true)
    (h : traceOf n s = some r) : owed s r.accepted = ((owed r.final []).1, r.delivered ++ (owed r.final []).2) := by
  induction n generalizing s r with
  | zero =>
    obtain rfl : _ = r := Option.some.inj h
    rfl
  | succ n ih =>
    obtain ⟨t, r', -, hcase, hrest, rfl⟩ := traceOf_cases h
    obtain ⟨hrst, hnext⟩ := noResetFor_succ hr
    rw [hcase.owed_eq hrst hs, ih (hcase.serving hrst hs) (hnext t hcase.pins_eq) hrest, List.append_assoc]

theorem Inv.serving {s : State} (h : Inv s) (hidle : s.ctl = .idle) : Serving s :=
  ⟨by simp [hidle], h.interface.pendingIffResponding⟩

/-- A run with `rst` 0 from IDLE to IDLE leaves the cipher state and has delivered the responses of the words it accepted, run
one after another. -/
theorem traceOf_idle_to_idle {n : Nat} {s : State} {r : Trace} (hinv : Inv s) (hidle : s.ctl = .idle)
    (hr : noResetFor n s = true) (h : traceOf n s = some r) (hfinal : r.final.ctl = .idle) :
    (r.final.cipher, r.delivered) = transactAll Config.thisHardware s.cipher r.accepted := by
  have howed := traceOf_owed (hinv.serving hidle) hr h
  rw [owed_idle hidle, owed_idle hfinal] at howed
  simpa [transactAll] using howed.symm

theorem transact_init (g : Params) (c : Cipher) : transact g c (encode .init) = (initState, 0x0000) := by
  simp only [transact, decode_encode, responseWord_statusOk_zero]

/-- Words accepted after INIT run from the initial cipher state, whatever the cipher state before INIT. -/
theorem transactAll_init (g : Params) (c : Cipher) (ws : List Word) :
    transactAll g c (encode .init :: ws) =
      ((transactAll g initState ws).1, 0x0000 :: (transactAll g initState ws).2) := by
  rw [transactAll_cons, transact_init]

/-- Settles O50: either run leaves the cipher state and the responses of its accepted words, by `traceOf_idle_to_idle`, and
these depend on the words after INIT alone, by `transactAll_init`. -/
theorem keystreamIsDetermined : Obligations.KeystreamIsDetermined := by
  unfold Obligations.KeystreamIsDetermined
  intro n n' s s' r r' cmds hinv hinv' hidle hidle' hr hr' hrun hrun' hfinal hfinal' hacc hacc'
  have hrefine := traceOf_idle_to_idle hinv hidle hr hrun hfinal
  have hrefine' := traceOf_idle_to_idle hinv' hidle' hr' hrun' hfinal'
  rw [hacc, transactAll_init] at hrefine
  rw [hacc', transactAll_init] at hrefine'
  obtain ⟨hcipher, hdelivered⟩ := Prod.mk.inj (hrefine.trans hrefine'.symm)
  exact ⟨hdelivered, hcipher⟩

end Sys2Proof.Machine
end

section
/-! ### SQUEEZE: its beginning, its output byte, its malformed words (spec/43_squeeze.md R140) -/

namespace Sys2Proof.Machine

/-- The cipher state and the response that SQUEEZE leaves, from any state. -/
theorem exec_squeeze_result (s : State) : ∃ t, exec .squeeze s = .next t ∧
    t.cipher = squeezeByte Config.thisHardware s.cipher ∧
    t.rsp = responseWord statusOk (squeezeByte Config.thisHardware s.cipher).z ∧
    t.rspValid = true ∧ t.ctl = .responding :=
  ⟨_, exec_squeeze s, respond_cipher _ _ _, respond_rsp _ _ _, respond_rspValid _ _ _, respond_ctl _ _ _⟩

/-- A response with STATUS OK is its DATA as a number. -/
theorem responseWord_statusOk_toNat (d : Byte) : (responseWord statusOk d).toNat = d.toNat := by
  rw [responseWord_toNat, show statusOk.toNat = 0 from rfl, Nat.zero_mul, Nat.zero_add]

theorem squeezeByte_i (g : Params) (c : Cipher) : (squeezeByte g c).i = c.i + (shuffleIfPending g c).w := by
  rw [squeezeByte_eq, update_i, shuffleIfPending_i]

/-- The byte SQUEEZE answers: the three reads of R140 over the swapped P, from the old z and the new i, j, k. -/
theorem squeezeByte_z (g : Params) (c : Cipher) :
    (squeezeByte g c).z = memRead (squeezeByte g c).P ((squeezeByte g c).j + memRead (squeezeByte g c).P
      ((squeezeByte g c).i + memRead (squeezeByte g c).P (c.z + (squeezeByte g c).k))) := by
  rw [← shuffleIfPending_z g c]
  rfl

/-- SQUEEZE's beginning leaves an odd stride odd. -/
theorem shuffleIfPending_w_odd (g : Params) {c : Cipher} (h : c.w.toNat % 2 = 1) :
    (shuffleIfPending g c).w.toNat % 2 = 1 := by
  rcases shuffleIfPending_cases g c with ⟨-, e⟩ | ⟨-, e⟩ <;> rw [e]
  · exact shuffle_w_odd g c
  · exact h

/-- With an odd stride SQUEEZE moves i, by a stride that is not 0. -/
theorem squeezeByte_i_ne (g : Params) {c : Cipher} (h : c.w.toNat % 2 = 1) : (squeezeByte g c).i ≠ c.i := by
  have hw := shuffleIfPending_w_odd g h
  rw [squeezeByte_i]
  bv_omega

/-- A word with SQUEEZE's OP that is not its encoding raises RESERVED_NONZERO. -/
theorem decode_op_squeeze_ne {w : Word} (hop : w.toNat / 4096 = 4) (hw : w ≠ 0x4000) :
    decode w = .error .reservedNonzero := by
  refine decode_low_bits_ne_zero (.inr (.inr hop)) fun hlow => hw ?_
  rw [← BitVec.toNat_inj, show (0x4000 : Word).toNat = 16384 from rfl]
  omega

/-- Settles O35: the next state by `exec_squeeze_result`, its byte by `squeezeByte_z` with the sums mod 256 as sums of bytes,
and that i moves by `squeezeByte_i_ne`; the two samples are evaluated; the malformed words by `decode_op_squeeze_ne`. -/
theorem squeezeAnswersTheOutputByte : Obligations.SqueezeAnswersTheOutputByte := by
  unfold Obligations.SqueezeAnswersTheOutputByte
  refine ⟨fun s => ?output, fun s hs => ?samples, fun s hop hw => ?malformed⟩
  case output =>
    obtain ⟨t, hexec, hcipher, hrsp, hresponse⟩ := exec_squeeze_result s
    have hz := squeezeByte_z Config.thisHardware s.cipher
    refine ⟨t, hexec, ?_, hcipher ▸ squeezeByte_a _ _,
      fun hw h => squeezeByte_i_ne Config.thisHardware hw (congrArg Cipher.i (hcipher.symm.trans h)), hresponse⟩
    simp only [ofNat_add_mod]
    refine ⟨?_, (congrArg BitVec.toNat hrsp).trans ((responseWord_statusOk_toNat _).trans (congrArg BitVec.toNat hz))⟩
    rw [hcipher]
    exact congrArg (fun z => { squeezeByte Config.thisHardware s.cipher with z := z }) hz
  case samples =>
    obtain ⟨t, hexec, hcipher, hrsp, -⟩ := exec_squeeze_result s
    obtain ⟨u, hexec', hcipher', hrsp', -⟩ := exec_squeeze_result t
    refine ⟨t, u, hexec, hexec', ?_⟩
    rw [hrsp, hrsp', hcipher', hcipher, hs]
    decide
  case malformed =>
    rw [runCommand_error (decode_op_squeeze_ne hop hw), raiseCommandError_reservedNonzero]

end Sys2Proof.Machine
end

section
/-! ### A CommandError is precise: a word runs as a whole or not at all (spec/60_exceptions.md R160) -/

namespace Sys2Proof.Machine

/-- Every command ends in one `respond` with STATUS OK: of the state around it only the cipher state may change. -/
theorem exec_responds_ok (i : Instr) (s : State) :
    ∃ c d, exec i s = .next (respond { s with cipher := c } statusOk d) := by
  cases i with
  | init => exact ⟨_, _, exec_init s⟩
  | absorb b => exact ⟨_, _, exec_absorb b s⟩
  | absorbStop => exact ⟨_, _, exec_absorbStop s⟩
  | squeeze => exact ⟨_, _, exec_squeeze s⟩

theorem exec_status_ok {i : Instr} {s t : State} (h : exec i s = .next t) : rspStatus t.rsp = statusOk := by
  obtain ⟨c, d, hexec⟩ := exec_responds_ok i s
  obtain rfl := Host.Outcome.next.inj (hexec.symm.trans h)
  exact (respond_status_data _ _ _).1

theorem raiseCommandError_status_ne_ok (e : CommandError) (s : State) :
    rspStatus (raiseCommandError e s).rsp ≠ statusOk := by
  rw [raiseCommandError_rsp, rspStatus_responseWord]
  exact statusOf_ne_statusOk e

/-- The whole next state where a CommandError is raised: of the state only RSP, `rsp_valid` and ctl change. -/
theorem raiseCommandError_eq (e : CommandError) (s : State) :
    raiseCommandError e s = { s with rsp := errorResponse e, rspValid := true, ctl := .responding } := rfl

theorem runCommand_run {s : State} {i : Instr} (h : decode s.cmd = .run i) : runCommand s = exec i s := by
  simp [runCommand, h]

/-- The last BUSY edge of a malformed word. -/
theorem step_error {s : State} {e : CommandError} (hrst : (nextPins s).rst = false) (hctl : s.ctl = .busy)
    (hwait : s.wait = 0) (herr : decode s.cmd = .error e) : step s = .next (raiseCommandError e (dropPins s)) :=
  (step_run hrst hctl hwait).trans (runCommand_error herr)

/-- The last BUSY edge of a word that selects a command. -/
theorem step_command {s : State} {i : Instr} (hrst : (nextPins s).rst = false) (hctl : s.ctl = .busy)
    (hwait : s.wait = 0) (hrun : decode s.cmd = .run i) : step s = exec i (dropPins s) :=
  (step_run hrst hctl hwait).trans (runCommand_run hrun)

/-- Settles O8: a malformed word's next state by `step_error`, and IDLE after it by `step_deliver`; all or nothing by what
decode makes of the word, `exec_status_ok` against `raiseCommandError_status_ne_ok`. -/
theorem commandErrorIsPrecise : Obligations.CommandErrorIsPrecise := by
  unfold Obligations.CommandErrorIsPrecise
  refine ⟨fun s e hctl hwait hrst herr => ?error, fun s t hctl hwait hrst hstep => ?allOrNothing⟩
  case error =>
    refine ⟨_, step_error hrst hctl hwait herr, ?_, fun hrst' hready =>
      ⟨_, step_deliver hrst' (raiseCommandError_ctl _ _) hready, rfl, rfl, raiseCommandError_cipher e _⟩⟩
    rw [raiseCommandError_eq]
    cases e <;> rfl
  case allOrNothing =>
    cases hdecode : decode s.cmd with
    | run i =>
      have hexec := step_command hrst hctl hwait hdecode
      exact .inl ⟨i, rfl, hexec, exec_status_ok (hexec.symm.trans hstep)⟩
    | error e =>
      obtain rfl := Host.Outcome.next.inj ((step_error hrst hctl hwait hdecode).symm.trans hstep)
      exact .inr ⟨⟨e, rfl⟩, raiseCommandError_cipher _ _, raiseCommandError_status_ne_ok _ _⟩

end Sys2Proof.Machine
end

section
/-! ### The reset sequence: it runs to its end and no word transfers meanwhile (spec/70_reset_and_hazards.md R180, R181) -/

namespace Sys2Proof.Machine

/-- An edge outside IDLE with no response pending adds nothing to the words a run transfers. -/
theorem traceOf_succ_of_nothing_transfers {n : Nat} {s t : State} {r : Trace} (hctl : s.ctl ≠ .idle)
    (hvalid : s.rspValid = false) (hstep : step s = .next t) (hrun : traceOf n t = some r) :
    traceOf (n + 1) s = some r := by
  rw [traceOf_succ hstep hrun, acceptedNext_of_not_idle hctl, deliveredNext_of_not_pending hvalid]
  rfl

/-- The state at the end of the reset sequence that runs in s: every edge of it takes one sample of the inputs. -/
def resetEnd (s : State) : State :=
  { finishReset s with wait := 0, pins := s.pins.drop (s.wait + 1) }

/-- The edges of a reset sequence: its latency passes, then the sequence ends, and nothing transfers. -/
theorem traceOf_resetSequence {n : Nat} : ∀ {s : State}, s.ctl = .resetting → s.rspValid = false → s.wait = n →
    noResetFor (n + 1) s = true →
    traceOf (n + 1) s = some { final := resetEnd s, accepted := [], delivered := [] } := by
  induction n with
  | zero =>
    intro s hctl hvalid hwait hnoReset
    have hlast : step s = .next (resetEnd s) := by
      rw [step_resetEnds (noResetFor_succ hnoReset).1 hctl hwait]
      simp [resetEnd, finishReset, dropPins, hwait]
    exact traceOf_succ_of_nothing_transfers (by simp [hctl]) hvalid hlast rfl
  | succ n ih =>
    intro s hctl hvalid hwait hnoReset
    obtain ⟨hrst, hrest⟩ := noResetFor_succ hnoReset
    have hend : resetEnd { dropPins s with wait := n } = resetEnd s := by
      simp [resetEnd, finishReset, hwait]
    have hrun := ih (s := { dropPins s with wait := n }) hctl hvalid rfl (hrest _ rfl)
    rw [hend] at hrun
    exact traceOf_succ_of_nothing_transfers (by simp [hctl]) hvalid (step_wait hrst (.inl hctl) hwait) hrun

/-- Settles O15: the edge with `rst` 1 by `step_rst`, and the RESET_LATENCY edges and the last one after it by
`traceOf_resetSequence`. -/
theorem resetAbandonsWhateverRan : Obligations.ResetAbandonsWhateverRan := by
  unfold Obligations.ResetAbandonsWhateverRan
  refine ⟨Config.resetLatency + 1, fun s hrst => ⟨_, step_rst hrst, enterReset_ctl _, rfl, enterReset_rspValid _,
    enterReset_rsp _, fun hnoReset => ?_⟩⟩
  refine ⟨_, traceOf_resetSequence (enterReset_ctl _) (enterReset_rspValid _) (enterReset_wait _) hnoReset, rfl, rfl, ?_⟩
  have hcipher : (resetEnd (enterReset (dropPins s))).cipher = initState := rfl
  rw [hcipher]
  exact ⟨memRead_nil, initState_i, initState_j, initState_k, initState_z, initState_a, initState_w, reset_cipher.symm,
    rfl, rfl, rfl, rfl⟩

end Sys2Proof.Machine
end

section
/-! ### Decode and encode, both ways (spec/30_encoding.md R73, R75) -/

namespace Sys2Proof.Machine

/-- A word that selects a command has passed every check of decode. -/
theorem checks_of_decode_run {w : Word} {i : Instr} (h : decode w = .run i) :
    (1 ≤ w.toNat / 4096 ∧ w.toNat / 4096 ≤ 4) ∧ w.toNat / 256 % 16 = 0 ∧
      (w.toNat / 4096 = 2 ∨ w.toNat % 256 = 0) := by
  have hop : 1 ≤ w.toNat / 4096 ∧ w.toNat / 4096 ≤ 4 :=
    by_contra fun hop => nomatch (decode_illegalOpcode hop).symm.trans h
  have hrsv : w.toNat / 256 % 16 = 0 := by_contra fun hrsv => nomatch (decode_rsv_ne_zero hop hrsv).symm.trans h
  refine ⟨hop, hrsv, or_iff_not_imp_left.2 fun hne => by_contra fun hdata => ?_⟩
  exact nomatch (decode_data_ne_zero (by omega) hrsv hdata).symm.trans h

theorem encode_absorb_toNat (b : Byte) : (encode (.absorb b)).toNat = 8192 + b.toNat := assembleWord_toNat 0x2 0x0 b

/-- A word that selects a command is the word of that command. -/
theorem eq_encode_of_decode_run {w : Word} {i : Instr} (h : decode w = .run i) : w = encode i := by
  obtain ⟨hop, hrsv, hdata⟩ := checks_of_decode_run h
  rw [decode_run hop hrsv hdata] at h
  split_ifs at h with hinit habsorb hstop <;> obtain rfl := Decoded.run.inj h <;> apply BitVec.eq_of_toNat_eq
  · rw [show (encode .init).toNat = 4096 from rfl]; omega
  · rw [encode_absorb_toNat, BitVec.toNat_ofNat]; omega
  · rw [show (encode .absorbStop).toNat = 12288 from rfl]; omega
  · rw [show (encode .squeeze).toNat = 16384 from rfl]; omega

/-- Exactly the word of a command selects it. -/
theorem decode_eq_run_iff (w : Word) (i : Instr) : decode w = .run i ↔ w = encode i :=
  ⟨eq_encode_of_decode_run, fun h => h ▸ decode_encode i⟩

theorem instr_wellFormed (i : Instr) : i.wellFormed = true := by
  cases i <;> rfl

/-- Settles O1: encode then decode by `decode_encode`, decode then encode by `eq_encode_of_decode_run`. -/
theorem decodeAndEncodeAgree : Obligations.DecodeAndEncodeAgree := by
  unfold Obligations.DecodeAndEncodeAgree
  exact ⟨fun i _ => decode_encode i, fun w i h => ⟨instr_wellFormed i, eq_encode_of_decode_run h⟩⟩

/-- The mask of the commands without an operand covers the whole word. -/
theorem and_ffff (w : Word) : w &&& 0xFFFF = w := BitVec.and_allOnes

/-- ABSORB's mask clears the low byte. -/
theorem and_ff00_toNat (w : Word) : (w &&& 0xFF00).toNat = w.toNat / 256 * 256 := by
  have hshift : w &&& (0xFF00 : Word) = w >>> 8 <<< 8 := (BitVec.shiftLeft_ushiftRight (x := w) (n := 8)).symm
  have hlt := w.isLt
  rw [hshift, BitVec.toNat_shiftLeft, BitVec.toNat_ushiftRight, Nat.shiftRight_eq_div_pow, Nat.shiftLeft_eq]
  omega

/-- The row of ABSORB in the command table: its bits under the mask, and the operand below them. -/
theorem eq_encode_absorb_iff (w : Word) (b : Byte) :
    w = encode (.absorb b) ↔ w &&& 0xFF00 = 0x2000 ∧ w.toNat % 256 = b.toNat := by
  have hb := b.isLt
  rw [← BitVec.toNat_inj, ← BitVec.toNat_inj, and_ff00_toNat, encode_absorb_toNat,
    show (0x2000 : Word).toNat = 8192 from rfl]
  omega

/-- Settles O3: by `decode_eq_run_iff` a word selects a command exactly if it is its encoding, which is what its row's mask
and match say. -/
theorem wordsUnderTheMaskSelectTheCommand : Obligations.WordsUnderTheMaskSelectTheCommand := by
  unfold Obligations.WordsUnderTheMaskSelectTheCommand
  intro w
  simp only [decode_eq_run_iff, and_ffff]
  exact ⟨Iff.rfl, eq_encode_absorb_iff w, Iff.rfl, Iff.rfl⟩

/-- Settles O4: the ten words, each evaluated by the decoder. -/
theorem specWordsDecode : Obligations.SpecWordsDecode := by
  unfold Obligations.SpecWordsDecode
  decide

/-- A word whose OP is defined never raises ILLEGAL_OPCODE. -/
theorem decode_illegalOpcode_iff (w : Word) :
    decode w = .error .illegalOpcode ↔ ¬ (1 ≤ w.toNat / 4096 ∧ w.toNat / 4096 ≤ 4) := by
  refine ⟨fun h hop => ?_, decode_illegalOpcode⟩
  by_cases hrsv : w.toNat / 256 % 16 = 0
  · by_cases hdata : w.toNat / 4096 = 2 ∨ w.toNat % 256 = 0
    · rw [decode_run hop hrsv hdata] at h
      split_ifs at h
    · exact nomatch (decode_data_ne_zero (by omega) hrsv (by omega)).symm.trans h
  · exact nomatch (decode_rsv_ne_zero hop hrsv).symm.trans h

/-- RESERVED_NONZERO is raised exactly under a defined OP, by a nonzero RSV or a DATA where there is no operand. -/
theorem decode_reservedNonzero_iff (w : Word) :
    decode w = .error .reservedNonzero ↔ (1 ≤ w.toNat / 4096 ∧ w.toNat / 4096 ≤ 4) ∧
      (w.toNat / 256 % 16 ≠ 0 ∨ (w.toNat / 4096 ≠ 2 ∧ w.toNat % 256 ≠ 0)) := by
  constructor
  · intro h
    have hop : 1 ≤ w.toNat / 4096 ∧ w.toNat / 4096 ≤ 4 :=
      by_contra fun hop => nomatch (decode_illegalOpcode hop).symm.trans h
    refine ⟨hop, by_contra fun hfields => ?_⟩
    rw [decode_run hop (by omega) (by omega)] at h
    split_ifs at h
  · rintro ⟨hop, hrsv | ⟨hne, hdata⟩⟩
    · exact decode_rsv_ne_zero hop hrsv
    · by_cases hrsv : w.toNat / 256 % 16 = 0
      · exact decode_data_ne_zero (by omega) hrsv hdata
      · exact decode_rsv_ne_zero hop hrsv

/-- Settles O9: the two CommandErrors by the checks that raise them. -/
theorem illegalOpcodeWins : Obligations.IllegalOpcodeWins := by
  unfold Obligations.IllegalOpcodeWins
  exact fun w => ⟨decode_illegalOpcode_iff w, decode_reservedNonzero_iff w⟩

end Sys2Proof.Machine
end

section
/-! ### The invariant of the block (spec/10_state.md R22, R29, R36; spec/30_encoding.md R72, R80) -/

namespace Sys2Proof.Machine

/-- Running a word, malformed or not, keeps the invariant of the cipher state. -/
theorem transact_inv (g : Params) {c : Cipher} (h : CipherInv c) (w : Word) : CipherInv (transact g c w).1 := by
  unfold transact
  cases decode w with
  | error e => exact h
  | run i =>
    cases i with
    | init => exact initState_inv
    | absorb b => exact absorbByte_inv g h b
    | absorbStop => exact absorbMarker_inv g h
    | squeeze => exact squeezeByte_inv g h

/-- What may stand in RSP: no status beyond 0x02, and no data with an error status. -/
def SoundResponse (rsp : Word) : Prop :=
  (rspStatus rsp).toNat ≤ 2 ∧ (rspStatus rsp ≠ statusOk → rspData rsp = 0x00)

theorem soundResponse_ok (d : Byte) : SoundResponse (responseWord statusOk d) := by
  simp [SoundResponse, statusOk]

theorem soundResponse_error (e : CommandError) : SoundResponse (errorResponse e) := by
  refine ⟨?_, fun _ => rspData_responseWord _ _⟩
  rw [errorResponse, rspStatus_responseWord]
  cases e <;> decide

theorem transact_soundResponse (g : Params) (c : Cipher) (w : Word) : SoundResponse (transact g c w).2 := by
  unfold transact
  cases decode w with
  | error e => exact soundResponse_error e
  | run i => cases i <;> exact soundResponse_ok _

theorem InterfaceInv.soundResponse {s : State} (h : InterfaceInv s) : SoundResponse s.rsp :=
  ⟨h.statusBound, h.errorData⟩

theorem interfaceInv_of_soundResponse {s : State} (h : SoundResponse s.rsp)
    (hpending : s.rspValid = true ↔ s.ctl = .responding) : InterfaceInv s :=
  { pendingIffResponding := hpending, statusBound := h.1, errorData := h.2 }

/-- The state after reset holds the response word 0x0000, and so does a block whose reset sequence runs. -/
theorem soundResponse_zero : SoundResponse 0x0000 := by
  unfold SoundResponse
  decide

theorem StepCase.cipherInv {s t : State} (h : StepCase s t) (hs : CipherInv s.cipher) : CipherInv t.cipher := by
  cases h with
  | reset | wait | accept | idle | deliver | hold => exact hs
  | resetEnds => exact initState_inv
  | run => exact transact_inv _ hs _

theorem StepCase.interfaceInv {s t : State} (h : StepCase s t) (hs : InterfaceInv s) : InterfaceInv t := by
  have hrsp := hs.soundResponse
  have hpending := hs.pendingIffResponding
  cases h with
  | reset => exact interfaceInv_of_soundResponse soundResponse_zero (iff_of_false nofun nofun)
  | wait | idle | hold => exact interfaceInv_of_soundResponse hrsp hpending
  | resetEnds _ hc => exact interfaceInv_of_soundResponse hrsp (iff_of_false (mt hpending.1 (by simp [hc])) nofun)
  | accept _ hc => exact interfaceInv_of_soundResponse hrsp (iff_of_false (mt hpending.1 (by simp [hc])) nofun)
  | run => exact interfaceInv_of_soundResponse (transact_soundResponse _ _ _) (iff_of_true rfl rfl)
  | deliver => exact interfaceInv_of_soundResponse hrsp (iff_of_false nofun nofun)

/-- Settles O44: the two parts of the invariant, each kept in every case of a step. -/
theorem everyStepKeepsTheInvariant : Obligations.EveryStepKeepsTheInvariant := by
  unfold Obligations.EveryStepKeepsTheInvariant
  intro s t hinv hstep
  have hcase := step_cases hstep
  exact ⟨hcase.cipherInv hinv.cipher, hcase.interfaceInv hinv.interface⟩

/-- Settles O45: the initial cipher state is sound by `initState_inv`, and nothing is pending in IDLE. -/
theorem invariantAtReset : Obligations.InvariantAtReset := by
  unfold Obligations.InvariantAtReset
  exact ⟨initState_inv, interfaceInv_of_soundResponse soundResponse_zero (iff_of_false nofun nofun)⟩

end Sys2Proof.Machine
end

section
/-! ### Runs from IDLE: the transactions they refine, and their count (spec/00_scope.md R14; spec/20_memory.md R58) -/

namespace Sys2Proof.Machine

/-- Settles O49: `traceOf_idle_to_idle`, which follows what the block owes along the run. -/
theorem runsRefineTransactions : Obligations.RunsRefineTransactions := by
  unfold Obligations.RunsRefineTransactions
  exact fun n s r hinv hidle hr hrun hfinal => traceOf_idle_to_idle hinv hidle hr hrun hfinal

/-- Commands run to completion answer once each. -/
theorem transactAll_length (g : Params) (c : Cipher) (ws : List Word) : (transactAll g c ws).2.length = ws.length := by
  induction ws generalizing c with
  | nil => rfl
  | cons w ws ih => rw [transactAll_cons, List.length_cons, ih, List.length_cons]

/-- The block owes one response for each word to come, and one more outside IDLE. -/
theorem Serving.owed_length {s : State} (hs : Serving s) (ws : List Word) :
    (owed s ws).2.length = ws.length + if s.ctl = .idle then 0 else 1 := by
  cases hc : s.ctl with
  | resetting => exact absurd hc hs.notResetting
  | idle => simp [owed_idle hc, transactAll_length]
  | busy => simp [owed_busy hc, transactAll_length]
  | responding => simp [owed_responding hc, transactAll_length]

/-- A run with `rst` 0 keeps `Serving`. -/
theorem traceOf_serving {n : Nat} {s : State} {r : Trace} (hs : Serving s) (hr : noResetFor n s = true)
    (h : traceOf n s = some r) : Serving r.final := by
  induction n generalizing s r with
  | zero =>
    obtain rfl : _ = r := Option.some.inj h
    exact hs
  | succ n ih =>
    obtain ⟨t, r', -, hcase, hrest, rfl⟩ := traceOf_cases h
    obtain ⟨hrst, hnext⟩ := noResetFor_succ hr
    exact ih (r := r') (hcase.serving hrst hs) (hnext t hcase.pins_eq) hrest

/-- Settles O51: the responses owed before the run are those delivered and those owed at its end, by `traceOf_owed`; in IDLE
they are as many as the words to come, elsewhere one more. -/
theorem oneResponsePerCommand : Obligations.OneResponsePerCommand := by
  unfold Obligations.OneResponsePerCommand
  intro n s r hinv hidle hr hrun
  have hs := hinv.serving hidle
  have hfinal := traceOf_serving hs hr hrun
  have howed := congrArg (fun owes => owes.2.length) (traceOf_owed hs hr hrun)
  simp only [List.length_append, hs.owed_length, hfinal.owed_length, hidle, if_true, List.length_nil, Nat.zero_add,
    Nat.add_zero] at howed
  exact ⟨howed, hfinal.notResetting⟩

end Sys2Proof.Machine
end

section
/-! ### The permutation RAM, SWAP, WHIP and SHUFFLE (spec/20_memory.md R55; spec/41_primitives.md R100, R103, R105) -/

namespace Sys2Proof.Machine

/-- Settles O17: `memRead_memWrite` and `memWrite_wf`. -/
theorem readReturnsTheLastWrite : Obligations.ReadReturnsTheLastWrite := by
  unfold Obligations.ReadReturnsTheLastWrite
  exact fun m x y v => ⟨memRead_memWrite m x v y, fun h => memWrite_wf h x v⟩

/-- Settles O18: `wfFrom_ext`, an induction over the two lists. -/
theorem equalReadsAreEqualData : Obligations.EqualReadsAreEqualData := by
  unfold Obligations.EqualReadsAreEqualData
  exact ⟨nil_wf, fun m m' hm hm' hread => wfFrom_ext hm hm' hread⟩

/-- Exchanging an entry with itself leaves canonical contents as they are. -/
theorem swap_self {c : Cipher} (h : c.P.wf = true) (x : Byte) : swap c x x = c := by
  have hP : (swap c x x).P = c.P :=
    wfFrom_ext ((swap_bySwaps c x x).wf h) h fun q => (memRead_swap_exchanged c x x q).trans (exchanged_self _ x q)
  exact congrArg (fun P => { c with P := P }) hP

/-- Settles O19: the entries by `memRead_swap_exchanged`, x = y by `swap_self`, the permutation by `BySwaps.permutation`; the
example is evaluated. -/
theorem swapExchangesTwoEntries : Obligations.SwapExchangesTwoEntries := by
  unfold Obligations.SwapExchangesTwoEntries
  refine ⟨memRead_swap_exchanged, fun c x y => ?_, fun c x h => swap_self h x,
    fun c x y h => (swap_bySwaps c x y).permutation h, by decide⟩
  exact ⟨swap_i c x y, swap_j c x y, swap_k c x y, swap_z c x y, swap_a c x y, swap_w c x y⟩

theorem updates_eq_iterate (r : Nat) (c : Cipher) : updates r c = update^[r] c := by
  induction r generalizing c with
  | zero => rfl
  | succ r ih => rw [updates, ih, Function.iterate_succ_apply]

/-- WHIP(r) advances i by r strides, as numbers mod 256. -/
theorem whip_i_toNat (g : Params) (r : Nat) (c : Cipher) :
    (whip g r c).i.toNat = (c.i.toNat + r * c.w.toNat) % 256 := by
  simp [whip_i, BitVec.toNat_add, BitVec.toNat_mul]

/-- Settles O22: the recursion of WHIP is the iteration of UPDATE, which keeps the stride; i by `whip_i_toNat`. -/
theorem whipIsUpdatesThenOddFix : Obligations.WhipIsUpdatesThenOddFix := by
  unfold Obligations.WhipIsUpdatesThenOddFix
  intro g r c
  have hupdates := updates_eq_iterate r c
  exact ⟨by rw [whip, hupdates], by rw [← hupdates, updates_w], rfl, whip_i_toNat g r c, whip_shuffleWhip_i g c⟩

/-- Settles O24: the sequence is the definition, and the registers are the laws of `shuffle`. -/
theorem shuffleRemixes : Obligations.ShuffleRemixes := by
  unfold Obligations.ShuffleRemixes
  intro g c
  refine ⟨by rw [shuffle, shuffleWhip], shuffle_i g c, shuffle_z g c, shuffle_a g c, shuffle_w_odd g c, fun hg hw => ?_⟩
  rw [shuffle_w_add hg hw, BitVec.toNat_add]
  rfl

end Sys2Proof.Machine
end

section
/-! ### ABSORB, where SHUFFLE runs and where it does not (spec/42_absorb.md R120, R122) -/

namespace Sys2Proof.Machine

theorem absorbNibble_of_ne (g : Params) {c : Cipher} (h : c.a ≠ 128) (x : BitVec 4) :
    absorbNibble g c x = { swap c c.a (nibbleAddress x) with a := c.a + 1 } := by
  rw [absorbNibble_eq, shuffleIfFull_of_ne g h]

/-- An ABSORB that runs no SHUFFLE: two exchanges, and a grows by 2. -/
theorem absorbByte_of_ne (g : Params) {c : Cipher} (h127 : c.a ≠ 127) (h128 : c.a ≠ 128) (b : Byte) :
    absorbByte g c b =
      { swap (swap c c.a (nibbleAddress (lowNibble b))) (c.a + 1) (nibbleAddress (highNibble b)) with a := c.a + 2 } := by
  have hhigh : c.a + 1 ≠ 128 := by bv_omega
  have hsum : c.a + 1 + 1 = c.a + 2 := BitVec.add_assoc c.a 1 1
  rw [absorbByte, absorbNibble_of_ne g h128, absorbNibble_of_ne g hhigh, ← hsum]
  rfl

/-- From the threshold an ABSORB is the ABSORB from the shuffled state. -/
theorem absorbByte_of_full (g : Params) {c : Cipher} (h : c.a = 128) (b : Byte) :
    absorbByte g c b = absorbByte g (shuffle g c) b := by
  rw [absorbByte, absorbNibble_of_full g h, absorbByte]

/-- From one below the threshold the low nibble fills the counter, and the high one begins with SHUFFLE. -/
theorem absorbByte_of_almost_full (g : Params) {c : Cipher} (h : c.a = 127) (b : Byte) :
    absorbByte g c b =
      absorbNibble g (shuffle g { swap c 127 (nibbleAddress (lowNibble b)) with a := 128 }) (highNibble b) := by
  have hlow : absorbNibble g c (lowNibble b) = { swap c 127 (nibbleAddress (lowNibble b)) with a := 128 } := by
    rw [absorbNibble_of_ne g (by rw [h]; decide), h]
    rfl
  rw [absorbByte, hlow]
  exact absorbNibble_of_full g rfl _

/-- A nibble absorbed from a counter of 0, as SHUFFLE leaves it, is exchanged at 0. -/
theorem absorbNibble_of_zero (g : Params) {c : Cipher} (h : c.a = 0) (x : BitVec 4) :
    (∀ q, memRead (absorbNibble g c x).P q = exchanged (memRead c.P) 0 (nibbleAddress x) q) ∧
    (absorbNibble g c x).a = 1 ∧ (absorbNibble g c x).i = c.i ∧ (absorbNibble g c x).j = c.j ∧
    (absorbNibble g c x).k = c.k ∧ (absorbNibble g c x).z = c.z ∧ (absorbNibble g c x).w = c.w := by
  rw [absorbNibble_of_ne g (by rw [h]; decide), h]
  exact ⟨memRead_swap_exchanged c 0 _, rfl, rfl, rfl, rfl, rfl, rfl⟩

/-- The two nibbles of a byte absorbed from a counter of 0 are exchanged at 0 and at 1. -/
theorem absorbByte_of_zero (g : Params) {c : Cipher} (h : c.a = 0) (b : Byte) :
    (∀ q, memRead (absorbByte g c b).P q = exchanged (exchanged (memRead c.P) 0 (nibbleAddress (lowNibble b)))
      1 (nibbleAddress (highNibble b)) q) ∧
    (absorbByte g c b).a = 2 ∧ (absorbByte g c b).i = c.i ∧ (absorbByte g c b).j = c.j ∧
    (absorbByte g c b).k = c.k ∧ (absorbByte g c b).z = c.z ∧ (absorbByte g c b).w = c.w := by
  refine ⟨fun q => ?_, ?_⟩
  · rw [memRead_absorbByte_exchanged g (by simp [h]) (by simp [h]), h]
    rfl
  · rw [absorbByte_of_ne g (by rw [h]; decide) (by rw [h]; decide), h]
    exact ⟨rfl, rfl, rfl, rfl, rfl, rfl⟩

theorem runsShuffle_absorb_iff (b : Byte) (c : Cipher) : runsShuffle (.absorb b) c = true ↔ c.a = 127 ∨ c.a = 128 := by
  rw [runsShuffle, Bool.or_eq_true, decide_eq_true_iff, decide_eq_true_iff]

theorem runsShuffle_absorbStop_iff (c : Cipher) : runsShuffle .absorbStop c = true ↔ c.a = 128 := decide_eq_true_iff

theorem runsShuffle_squeeze_iff (c : Cipher) : runsShuffle .squeeze c = true ↔ c.a ≠ 0 := decide_eq_true_iff

theorem runsShuffle_absorb_eq_false_iff (b : Byte) (c : Cipher) :
    runsShuffle (.absorb b) c = false ↔ c.a ≠ 127 ∧ c.a ≠ 128 := by
  rw [Bool.eq_false_iff, ne_eq, runsShuffle_absorb_iff, not_or]

theorem runsShuffle_absorbStop_eq_false_iff (c : Cipher) : runsShuffle .absorbStop c = false ↔ c.a ≠ 128 :=
  decide_eq_false_iff_not

theorem runsShuffle_squeeze_eq_false_iff (c : Cipher) : runsShuffle .squeeze c = false ↔ c.a = 0 := by
  rw [Bool.eq_false_iff, ne_eq, runsShuffle_squeeze_iff, not_not]

theorem nibbleAddress_lowNibble (b : Byte) : nibbleAddress (lowNibble b) = BitVec.ofNat 8 (128 + b.toNat % 16) := by
  rw [nibbleAddress_eq_ofNat, lowNibble_toNat]

theorem nibbleAddress_highNibble (b : Byte) : nibbleAddress (highNibble b) = BitVec.ofNat 8 (128 + b.toNat / 16) := by
  rw [nibbleAddress_eq_ofNat, highNibble_toNat]

/-- Settles O30: the entries by `memRead_absorbByte_exchanged`, the registers by `absorbByte_of_ne`. -/
theorem absorbWithoutShuffle : Obligations.AbsorbWithoutShuffle := by
  unfold Obligations.AbsorbWithoutShuffle
  intro s b h127 h128
  obtain ⟨t, hexec, hcipher, hresponse⟩ := exec_absorb_result b s
  refine ⟨t, hexec, fun q => ?_, ?_⟩
  · rw [hcipher, memRead_absorbByte_exchanged _ h127 h128, nibbleAddress_lowNibble, nibbleAddress_highNibble]
  · rw [hcipher, absorbByte_of_ne _ (ne_of_apply_ne BitVec.toNat h127) (ne_of_apply_ne BitVec.toNat h128)]
    exact ⟨rfl, rfl, rfl, rfl, rfl, rfl, hresponse⟩

/-- Settles O31: at a = 128 it is an ABSORB without SHUFFLE from the shuffled state, by `absorbByte_of_full`; at a = 127 the
high nibble alone is absorbed from it, by `absorbByte_of_almost_full`. -/
theorem absorbWithShuffle : Obligations.AbsorbWithShuffle := by
  unfold Obligations.AbsorbWithShuffle
  intro s b
  obtain ⟨t, hexec, hcipher, hresponse⟩ := exec_absorb_result b s
  simp only [← nibbleAddress_lowNibble, ← nibbleAddress_highNibble]
  refine ⟨fun h => ⟨t, hexec, ?full, hresponse⟩, fun h => ⟨t, hexec, ?almostFull, hresponse⟩⟩
  case full =>
    obtain ⟨hP, ha, hi, hj, hk, hz, hw⟩ :=
      absorbByte_of_zero Config.thisHardware (shuffle_a Config.thisHardware s.cipher) b
    rw [hcipher, absorbByte_of_full _ (byte_eq_of_toNat h)]
    exact ⟨hP, ha, hi.trans (shuffle_i _ _), hj, hk, hz.trans (shuffle_z _ _), hw⟩
  case almostFull =>
    rw [hcipher, absorbByte_of_almost_full _ (byte_eq_of_toNat h)]
    obtain ⟨hP, ha, hi, hj, hk, hz, hw⟩ := absorbNibble_of_zero Config.thisHardware (shuffle_a Config.thisHardware
      { swap s.cipher 127 (nibbleAddress (lowNibble b)) with a := 128 }) (highNibble b)
    exact ⟨hP, ha, hi.trans (shuffle_i _ _), hj, hk, hz.trans (shuffle_z _ _), hw⟩

end Sys2Proof.Machine
end

section
/-! ### The stride, and that SQUEEZE always advances (spec/41_primitives.md R106; spec/43_squeeze.md R141) -/

namespace Sys2Proof.Machine

/-- Where ABSORB runs SHUFFLE, at either nibble, an odd stride grows by 6. -/
theorem absorbByte_w {g : Params} (hg : g.whipIncrementFirst = true) {c : Cipher} (hw : c.w.toNat % 2 = 1) (b : Byte) :
    (absorbByte g c b).w = if runsShuffle (.absorb b) c = true then c.w + 6 else c.w := by
  by_cases h128 : c.a = 128
  · obtain ⟨-, -, -, -, -, -, hstride⟩ := absorbByte_of_zero g (shuffle_a g c) b
    rw [absorbByte_of_full g h128, hstride, shuffle_w_add hg hw, if_pos ((runsShuffle_absorb_iff b c).2 (.inr h128))]
  · by_cases h127 : c.a = 127
    · obtain ⟨-, -, -, -, -, -, hstride⟩ := absorbNibble_of_zero g
        (shuffle_a g { swap c 127 (nibbleAddress (lowNibble b)) with a := 128 }) (highNibble b)
      rw [absorbByte_of_almost_full g h127, hstride, shuffle_w_add hg (by exact hw),
        if_pos ((runsShuffle_absorb_iff b c).2 (.inl h127))]
      rfl
    · rw [absorbByte_of_ne g h127 h128, if_neg (mt (runsShuffle_absorb_iff b c).1 (not_or.2 ⟨h127, h128⟩))]
      rfl

/-- Where ABSORB_STOP runs SHUFFLE an odd stride grows by 6. -/
theorem absorbMarker_w {g : Params} (hg : g.whipIncrementFirst = true) {c : Cipher} (hw : c.w.toNat % 2 = 1) :
    (absorbMarker g c).w = if runsShuffle .absorbStop c = true then c.w + 6 else c.w := by
  rcases absorbMarker_cases g c with ⟨h128, e⟩ | ⟨h128, e⟩ <;> rw [e]
  · rw [if_pos ((runsShuffle_absorbStop_iff c).2 h128), ← shuffle_w_add hg hw]
    split <;> rfl
  · rw [if_neg (mt (runsShuffle_absorbStop_iff c).1 h128)]

/-- Where SQUEEZE begins with SHUFFLE an odd stride grows by 6. -/
theorem shuffleIfPending_w {g : Params} (hg : g.whipIncrementFirst = true) {c : Cipher} (hw : c.w.toNat % 2 = 1) :
    (shuffleIfPending g c).w = if runsShuffle .squeeze c = true then c.w + 6 else c.w := by
  rcases shuffleIfPending_cases g c with ⟨h0, e⟩ | ⟨h0, e⟩ <;> rw [e]
  · rw [if_pos ((runsShuffle_squeeze_iff c).2 h0), shuffle_w_add hg hw]
  · rw [if_neg (mt (runsShuffle_squeeze_iff c).1 (not_not.2 h0))]

/-- The stride under every command but INIT. -/
theorem exec_w {i : Instr} {s : State} (hi : i ≠ .init) (hw : s.cipher.w.toNat % 2 = 1) :
    ∃ t, exec i s = .next t ∧
      t.cipher.w = if runsShuffle i s.cipher = true then s.cipher.w + 6 else s.cipher.w := by
  cases i with
  | init => exact absurd rfl hi
  | absorb b => exact ⟨_, exec_absorb b s, absorbByte_w rfl hw b⟩
  | absorbStop => exact ⟨_, exec_absorbStop s, absorbMarker_w rfl hw⟩
  | squeeze => exact ⟨_, exec_squeeze s, shuffleIfPending_w rfl hw⟩

/-- Settles O25: `exec_w`, with the stride as a number. -/
theorem strideGrowsExactlyWhereShuffleRuns : Obligations.StrideGrowsExactlyWhereShuffleRuns := by
  unfold Obligations.StrideGrowsExactlyWhereShuffleRuns
  intro i s hi hw
  obtain ⟨t, hexec, hstride⟩ := exec_w hi hw
  refine ⟨t, hexec, ?_⟩
  rw [hstride]
  split
  · exact BitVec.toNat_add _ _
  · rfl

/-- Only a SQUEEZE answers with data. -/
theorem transact_rspData_of_ne_squeeze (g : Params) (c : Cipher) {w : Word} (h : decode w ≠ .run .squeeze) :
    rspData (transact g c w).2 = 0x00 := by
  unfold transact
  cases hdecode : decode w with
  | error e => exact rspData_responseWord _ _
  | run i =>
    cases i with
    | squeeze => exact absurd hdecode h
    | init | absorb | absorbStop => exact rspData_responseWord _ _

/-- Settles O38: i moves by the stride, by `squeezeByte_i` and `shuffleIfPending_w`; the other answers by
`transact_rspData_of_ne_squeeze`. -/
theorem squeezeAlwaysAdvances : Obligations.SqueezeAlwaysAdvances := by
  unfold Obligations.SqueezeAlwaysAdvances
  refine ⟨fun s hw => ?advances, fun s h => ⟨_, runCommand_eq s, transact_rspData_of_ne_squeeze _ _ h⟩⟩
  case advances =>
    obtain ⟨t, hexec, hcipher, -⟩ := exec_squeeze_result s
    refine ⟨t, hexec, hcipher ▸ squeezeByte_i_ne _ hw, ?_⟩
    rw [hcipher, squeezeByte_i, shuffleIfPending_w rfl hw]
    by_cases ha : s.cipher.a = 0
    · rw [if_neg (mt (runsShuffle_squeeze_iff _).1 (not_not.2 ha)), if_pos ha, BitVec.toNat_add]
      rfl
    · rw [if_pos ((runsShuffle_squeeze_iff _).2 ha), if_neg ha, ← BitVec.add_assoc]
      bv_omega

end Sys2Proof.Machine
end

section
/-! ### The frames of the commands (spec/10_state.md R30) -/

namespace Sys2Proof.Machine

/-- Every command leaves CMD and the model's own fields as they were. -/
theorem exec_keeps_cmd_wait_pins {i : Instr} {s t : State} (h : exec i s = .next t) :
    t.cmd = s.cmd ∧ t.wait = s.wait ∧ t.pins = s.pins := by
  obtain ⟨c, d, hexec⟩ := exec_responds_ok i s
  obtain rfl := Host.Outcome.next.inj (hexec.symm.trans h)
  exact ⟨rfl, rfl, rfl⟩

/-- Settles O28: `exec_keeps_cmd_wait_pins`. -/
theorem initFrame : Obligations.InitFrame := by
  unfold Obligations.InitFrame
  exact fun s t h => exec_keeps_cmd_wait_pins h

/-- Settles O32: i and z by the laws of `absorbByte`; where no SHUFFLE runs, the registers by `absorbByte_of_ne` and the entries
by its two exchanges. -/
theorem absorbFrame : Obligations.AbsorbFrame := by
  unfold Obligations.AbsorbFrame
  intro s t b h
  obtain ⟨hcmd, hwait, hpins⟩ := exec_keeps_cmd_wait_pins h
  obtain rfl := Host.Outcome.next.inj ((exec_absorb b s).symm.trans h)
  rw [respond_cipher]
  refine ⟨absorbByte_i _ _ b, absorbByte_z _ _ b, hcmd, hwait, hpins, fun hno => ?_⟩
  obtain ⟨h127, h128⟩ := (runsShuffle_absorb_eq_false_iff b _).1 hno
  rw [absorbByte_of_ne _ h127 h128]
  refine ⟨rfl, rfl, rfl, fun q hlow hlow' hhigh hhigh' => ?_⟩
  calc memRead (swap (swap s.cipher s.cipher.a _) (s.cipher.a + 1) _).P q
    _ = memRead (swap s.cipher s.cipher.a _).P q := by
      rw [memRead_swap_exchanged, exchanged_other _ hhigh hhigh']
    _ = memRead s.cipher.P q := by rw [memRead_swap_exchanged, exchanged_other _ hlow hlow']

/-- Settles O34: i and z by the laws of `absorbMarker`, and below the threshold only a changes, by `absorbMarker_of_ne`. -/
theorem absorbStopFrame : Obligations.AbsorbStopFrame := by
  unfold Obligations.AbsorbStopFrame
  intro s t h
  obtain ⟨hcmd, hwait, hpins⟩ := exec_keeps_cmd_wait_pins h
  obtain rfl := Host.Outcome.next.inj ((exec_absorbStop s).symm.trans h)
  rw [respond_cipher]
  refine ⟨absorbMarker_i _ _, absorbMarker_z _ _, hcmd, hwait, hpins, fun hno => ?_⟩
  rw [absorbMarker_of_ne _ ((runsShuffle_absorbStop_eq_false_iff _).1 hno)]
  exact ⟨rfl, rfl, rfl, fun q => rfl⟩

theorem shuffleIfPending_of_eq (g : Params) {c : Cipher} (h : c.a = 0) : shuffleIfPending g c = c :=
  if_neg (not_not.2 h)

/-- Settles O36: where nothing is pending SQUEEZE's effect on P is UPDATE's, an exchange at the new i and the new j. -/
theorem squeezeFrame : Obligations.SqueezeFrame := by
  unfold Obligations.SqueezeFrame
  intro s t h
  obtain ⟨hcmd, hwait, hpins⟩ := exec_keeps_cmd_wait_pins h
  obtain rfl := Host.Outcome.next.inj ((exec_squeeze s).symm.trans h)
  rw [respond_cipher]
  refine ⟨hcmd, hwait, hpins, fun hno => ?_⟩
  rw [squeezeByte_eq, shuffleIfPending_of_eq _ ((runsShuffle_squeeze_eq_false_iff _).1 hno)]
  refine ⟨update_a _, update_w _, fun q hi hj => ?_⟩
  rw [memRead_update_exchanged, exchanged_other _ hi hj]

end Sys2Proof.Machine
end

section
/-! ### One edge: what runs, and the controller's transitions (spec/10_state.md R36; spec/70_reset_and_hazards.md R191) -/

namespace Sys2Proof.Machine

/-- Settles O5: `step_command`. -/
theorem stepRunsTheDecodedCommand : Obligations.StepRunsTheDecodedCommand := by
  unfold Obligations.StepRunsTheDecodedCommand
  exact fun s i hctl hwait hrst hrun => step_command hrst hctl hwait hrun

/-- The number of a word is that word again. -/
theorem withFetchWord_toNat (s : State) (v : Word) : s.withFetchWord 16 v.toNat = placeCommand v s := by
  rw [State.withFetchWord, Nat.mod_eq_of_lt v.isLt, BitVec.ofNat_toNat, BitVec.setWidth_eq]

/-- Settles O6: the placed word is one that `step_command` runs, by `decode_encode`. -/
theorem placedWordRunsNext : Obligations.PlacedWordRunsNext := by
  unfold Obligations.PlacedWordRunsNext
  intro s i _
  have hrun : decode (placeCommand (encode i) s).cmd = .run i := decode_encode i
  have hquiet : (nextPins (placeCommand (encode i) s)).rst = false := quiet_rst
  rw [withFetchWord_toNat, step_command hquiet (placeCommand_ctl _ s) (placeCommand_wait _ s) hrun, dropPins_placeCommand]

/-- Settles O7: every step is one of the cases of `step_case`, and every command ends in a response. -/
theorem noStepFaultsOrRefuses : Obligations.NoStepFaultsOrRefuses := by
  unfold Obligations.NoStepFaultsOrRefuses
  refine ⟨fun s => ?_, fun i s => ?_⟩
  · obtain ⟨t, hstep, -⟩ := step_case s
    exact ⟨t, hstep⟩
  · obtain ⟨c, d, hexec⟩ := exec_responds_ok i s
    exact ⟨_, hexec⟩

/-- Settles O52: with `rst` 1 neither channel transfers, and the step is `step_rst` for every sample with `rst` 1. -/
theorem nothingTransfersAtAResetEdge : Obligations.NothingTransfersAtAResetEdge := by
  unfold Obligations.NothingTransfersAtAResetEdge
  refine fun s hrst => ⟨by simp [acceptedNext, hrst], by simp [deliveredNext, hrst], fun p hp => ?_⟩
  have hother : step { s with pins := p :: s.pins.tail } = .next (enterReset (dropPins s)) := step_rst hp
  rw [hother, step_rst hrst]

/-- A step has one next state. -/
theorem step_unique {s t u : State} (h : step s = .next t) (h' : step s = .next u) : t = u :=
  Host.Outcome.next.inj (h.symm.trans h')

/-- The last BUSY edge leaves a response pending. -/
theorem step_run_pending {s t : State} (hrst : (nextPins s).rst = false) (hctl : s.ctl = .busy) (hwait : s.wait = 0)
    (h : step s = .next t) : t.ctl = .responding ∧ t.rspValid = true := by
  obtain rfl := step_unique h ((step_run hrst hctl hwait).trans (runCommand_eq _))
  exact ⟨rfl, rfl⟩

/-- An edge inside the reset sequence or inside a command stays in it. -/
theorem step_wait_ctl {s t : State} (hrst : (nextPins s).rst = false) (hctl : s.ctl = .resetting ∨ s.ctl = .busy)
    (hwait : s.wait ≠ 0) (h : step s = .next t) : t.ctl = s.ctl := by
  obtain ⟨n, hn⟩ := Nat.exists_eq_succ_of_ne_zero hwait
  obtain rfl := step_unique h (step_wait hrst hctl hn)
  rfl

/-- Settles O10: one clause for each case of the step, each by the equation of that case. -/
theorem controllerTransitions : Obligations.ControllerTransitions := by
  unfold Obligations.ControllerTransitions
  refine ⟨fun s => decide_eq_true_iff, fun s t hstep => ⟨fun hrst => ?reset, fun hrst => ⟨fun hctl => ?resetting,
    fun hctl hvalid => ?accept, fun hctl hvalid => ?idle, fun hctl hwait => step_run_pending hrst hctl hwait hstep,
    fun hctl hwait => (step_wait_ctl hrst (.inr hctl) hwait hstep).trans hctl, fun hctl hready => ?deliver,
    fun hctl hready => ?hold⟩⟩⟩
  case reset =>
    obtain rfl := step_unique hstep (step_rst hrst)
    rfl
  case resetting =>
    by_cases hwait : s.wait = 0
    · obtain rfl := step_unique hstep (step_resetEnds hrst hctl hwait)
      exact (if_pos hwait).symm
    · rw [if_neg hwait, step_wait_ctl hrst (.inl hctl) hwait hstep, hctl]
  case accept =>
    obtain rfl := step_unique hstep (step_accept hrst hctl hvalid)
    exact ⟨rfl, rfl⟩
  case idle =>
    obtain rfl := step_unique hstep (step_idle hrst hctl hvalid)
    exact ⟨hctl, rfl⟩
  case deliver =>
    obtain rfl := step_unique hstep (step_deliver hrst hctl hready)
    exact ⟨rfl, rfl⟩
  case hold =>
    obtain rfl := step_unique hstep (step_hold hrst hctl hready)
    exact ⟨hctl, rfl⟩

end Sys2Proof.Machine
end

section
/-! ### Waiting: pending responses, offered words, and that every command is answered (spec/70_reset_and_hazards.md R191 to R195) -/

namespace Sys2Proof.Machine

/-- The host neither resets the block nor takes a response at the next n edges. -/
def NotTakenFor (n : Nat) (s : State) : Prop := ∀ p ∈ s.pins.take n, p.rst = false ∧ p.rspReady = false

/-- The first edge of such a stretch, and the stretch after it. -/
theorem notTakenFor_succ {n : Nat} {s : State} (h : NotTakenFor (n + 1) s) :
    (nextPins s).rst = false ∧ (nextPins s).rspReady = false ∧ NotTakenFor n (dropPins s) := by
  unfold NotTakenFor at h ⊢
  rw [dropPins_pins, nextPins]
  cases hpins : s.pins with
  | nil => simp [Pins.quiet]
  | cons p ps =>
    rw [hpins, List.take_succ_cons] at h
    obtain ⟨hrst, hready⟩ := h p List.mem_cons_self
    exact ⟨hrst, hready, fun q hq => h q (List.mem_cons_of_mem _ hq)⟩

theorem deliveredNext_of_not_ready {s : State} (h : (nextPins s).rspReady = false) : deliveredNext s = none := by
  simp [deliveredNext, h]

/-- A response that is not taken is held, with the whole state but the samples. -/
theorem traceOf_notTaken {n : Nat} {s : State} (hctl : s.ctl = .responding) (h : NotTakenFor n s) :
    traceOf n s = some { final := { s with pins := s.pins.drop n }, accepted := [], delivered := [] } := by
  induction n generalizing s with
  | zero => rfl
  | succ n ih =>
    obtain ⟨hrst, hready, hnext⟩ := notTakenFor_succ h
    have hrest := ih (s := dropPins s) hctl hnext
    rw [dropPins_pins, List.drop_tail] at hrest
    rw [traceOf_succ (step_hold hrst hctl hready) hrest, acceptedNext_of_not_idle (by simp [hctl]),
      deliveredNext_of_not_ready hready]
    rfl

/-- Settles O11: `traceOf_notTaken`, an induction over the edges. -/
theorem untakenResponseIsHeld : Obligations.UntakenResponseIsHeld := by
  unfold Obligations.UntakenResponseIsHeld
  exact fun n s hctl h => traceOf_notTaken hctl h

/-- CMD changes only by a command transfer or at an edge with `rst` 1. -/
theorem StepCase.cmd_eq {s t : State} (h : StepCase s t) (hrst : (nextPins s).rst = false)
    (hno : ¬ (s.ctl = .idle ∧ (nextPins s).cmdValid = true)) : t.cmd = s.cmd := by
  cases h with
  | reset h => exact absurd (hrst.symm.trans h) nofun
  | accept _ hc hv => exact absurd ⟨hc, hv⟩ hno
  | wait | resetEnds | idle | run | deliver | hold => rfl

/-- A host that still offers a word that did not transfer offers the same word. -/
theorem cmdData_eq_of_hostHoldsOffer {s : State} {p : Pins} (hheld : hostHoldsOffer s p = true)
    (hoffered : (nextPins s).cmdValid = true) (hwaits : acceptedNext s = none) (hoffers : p.cmdValid = true) :
    p.cmdData = (nextPins s).cmdData := by
  simpa [hostHoldsOffer, hoffered, hwaits, hoffers] using hheld

/-- Settles O12: outside IDLE no word transfers and CMD stays; in IDLE the offered word does, and a dutiful host still offers
the same one. -/
theorem offeredWordWaits : Obligations.OfferedWordWaits := by
  unfold Obligations.OfferedWordWaits
  intro s t hrst hready hoffered hstep
  have hctl : s.ctl ≠ .idle := of_decide_eq_false hready
  have hwaits := acceptedNext_of_not_idle hctl
  refine ⟨hwaits, (step_cases hstep).cmd_eq hrst fun h => hctl h.1, fun hheld hoffers hidle hrst' => ?_⟩
  rw [acceptedNext_idle hrst' hidle, if_pos hoffers, cmdData_eq_of_hostHoldsOffer hheld hoffered hwaits hoffers]

/-- From BUSY the response is pending one edge after the latency has passed. -/
theorem traceOf_busy {n : Nat} {s : State} (hctl : s.ctl = .busy) (hwait : s.wait = n)
    (hr : noResetFor (n + 1) s = true) :
    ∃ r, traceOf (n + 1) s = some r ∧ r.final.ctl = .responding ∧ r.final.rspValid = true := by
  induction n generalizing s with
  | zero =>
    obtain ⟨hrst, -⟩ := noResetFor_succ hr
    exact ⟨_, traceOf_succ ((step_run hrst hctl hwait).trans (runCommand_eq _)) rfl, rfl, rfl⟩
  | succ n ih =>
    obtain ⟨hrst, hnext⟩ := noResetFor_succ hr
    obtain ⟨r, hrun, hfinal⟩ := ih (s := { dropPins s with wait := n }) hctl rfl (hnext _ rfl)
    exact ⟨_, traceOf_succ (step_wait hrst (.inr hctl) hwait) hrun, hfinal⟩

/-- Settles O13: `traceOf_busy`, with the latency that is left as the number of edges, and then `step_deliver`. -/
theorem everyCommandIsAnswered : Obligations.EveryCommandIsAnswered := by
  unfold Obligations.EveryCommandIsAnswered
  refine fun s hctl => ⟨s.wait + 1, fun ps hr => ?_⟩
  obtain ⟨r, hrun, hresponding, hpending⟩ := traceOf_busy (s := { s with pins := ps }) hctl rfl hr
  refine ⟨r, hrun, hresponding, hpending, fun hrst hready => ⟨?_, _, step_deliver hrst hresponding hready, rfl⟩⟩
  rw [deliveredNext_pending hrst hpending, if_pos hready]

end Sys2Proof.Machine
end

section
/-! ### Who writes what, and what the host can see (spec/10_state.md R22, R30; spec/60_exceptions.md R171) -/

namespace Sys2Proof.Machine

/-- Running a word changes P by SWAPs alone, but for INIT. -/
theorem transact_bySwaps_or_init (g : Params) (c : Cipher) (w : Word) :
    BySwaps c.P (transact g c w).1.P ∨ (transact g c w).1 = initState := by
  unfold transact
  cases decode w with
  | error e => exact .inl (.refl _)
  | run i =>
    cases i with
    | init => exact .inr rfl
    | absorb b => exact .inl (absorbByte_bySwaps g c b)
    | absorbStop => exact .inl (absorbMarker_bySwaps g c)
    | squeeze => exact .inl (squeezeByte_bySwaps g c)

/-- Settles O46: a step leaves P alone, ends a reset sequence, or runs a word. -/
theorem onlySwapsAndInitialisationWriteP : Obligations.OnlySwapsAndInitialisationWriteP := by
  unfold Obligations.OnlySwapsAndInitialisationWriteP
  intro s t hstep
  cases step_cases hstep with
  | reset | wait | accept | idle | deliver | hold => exact .inl (.refl _)
  | resetEnds => exact .inr rfl
  | run => exact transact_bySwaps_or_init _ _ _

/-- Outside a reset the cipher state changes only where the word in CMD runs. -/
theorem StepCase.cipher_cases {s t : State} (h : StepCase s t) (hctl : s.ctl ≠ .resetting) :
    t.cipher = s.cipher ∨
    (s.ctl = .busy ∧ s.wait = 0 ∧ t.cipher = (transact Config.thisHardware s.cipher s.cmd).1) := by
  cases h with
  | reset | wait | accept | idle | deliver | hold => exact .inl rfl
  | resetEnds _ hc => exact absurd hc hctl
  | run _ hc hw => exact .inr ⟨hc, hw, rfl⟩

/-- A malformed word changes no part of the cipher state. -/
theorem transact_cipher_of_error (g : Params) (c : Cipher) {w : Word} {e : CommandError} (h : decode w = .error e) :
    (transact g c w).1 = c := by
  simp only [transact, h]

/-- Which words write i or z. -/
theorem transact_writes_i_z {g : Params} {c : Cipher} {w : Word}
    (h : (transact g c w).1.i ≠ c.i ∨ (transact g c w).1.z ≠ c.z) : decode w = .run .init ∨ decode w = .run .squeeze := by
  unfold transact at h
  cases hdecode : decode w with
  | error e => simp [hdecode] at h
  | run i =>
    cases i with
    | init => exact .inl rfl
    | absorb b => simp [hdecode] at h
    | absorbStop => simp [hdecode] at h
    | squeeze => exact .inr rfl

/-- An absorption that runs no SHUFFLE leaves j, k and w as they were. -/
theorem absorbByte_keeps_j_k_w (g : Params) {c : Cipher} {b : Byte} (h : runsShuffle (.absorb b) c = false) :
    (absorbByte g c b).j = c.j ∧ (absorbByte g c b).k = c.k ∧ (absorbByte g c b).w = c.w := by
  obtain ⟨h127, h128⟩ := (runsShuffle_absorb_eq_false_iff b c).1 h
  rw [absorbByte_of_ne g h127 h128]
  exact ⟨rfl, rfl, rfl⟩

theorem absorbMarker_keeps_j_k_w (g : Params) {c : Cipher} (h : runsShuffle .absorbStop c = false) :
    (absorbMarker g c).j = c.j ∧ (absorbMarker g c).k = c.k ∧ (absorbMarker g c).w = c.w := by
  rw [absorbMarker_of_ne g ((runsShuffle_absorbStop_eq_false_iff c).1 h)]
  exact ⟨rfl, rfl, rfl⟩

theorem squeezeByte_keeps_w (g : Params) {c : Cipher} (h : runsShuffle .squeeze c = false) : (squeezeByte g c).w = c.w := by
  rw [squeezeByte_eq, shuffleIfPending_of_eq g ((runsShuffle_squeeze_eq_false_iff c).1 h)]
  rfl

/-- Which words write j or k. -/
theorem transact_writes_j_k {g : Params} {c : Cipher} {w : Word}
    (h : (transact g c w).1.j ≠ c.j ∨ (transact g c w).1.k ≠ c.k) :
    decode w = .run .init ∨ decode w = .run .squeeze ∨ ∃ i, decode w = .run i ∧ runsShuffle i c = true := by
  cases hdecode : decode w with
  | error e => simp [transact_cipher_of_error g c hdecode] at h
  | run i =>
    simp only [transact, hdecode] at h
    cases i with
    | init => exact .inl rfl
    | squeeze => exact .inr (.inl rfl)
    | absorb b =>
      refine .inr (.inr ⟨_, rfl, by_contra fun hno => ?_⟩)
      obtain ⟨hj, hk, -⟩ := absorbByte_keeps_j_k_w g (Bool.eq_false_iff.2 hno)
      exact h.elim (absurd hj) (absurd hk)
    | absorbStop =>
      refine .inr (.inr ⟨_, rfl, by_contra fun hno => ?_⟩)
      obtain ⟨hj, hk, -⟩ := absorbMarker_keeps_j_k_w g (Bool.eq_false_iff.2 hno)
      exact h.elim (absurd hj) (absurd hk)

/-- Which words write w. -/
theorem transact_writes_w {g : Params} {c : Cipher} {w : Word} (h : (transact g c w).1.w ≠ c.w) :
    decode w = .run .init ∨ ∃ i, decode w = .run i ∧ runsShuffle i c = true := by
  cases hdecode : decode w with
  | error e => simp [transact_cipher_of_error g c hdecode] at h
  | run i =>
    simp only [transact, hdecode] at h
    cases i with
    | init => exact .inl rfl
    | absorb b =>
      refine .inr ⟨_, rfl, by_contra fun hno => ?_⟩
      obtain ⟨-, -, hw⟩ := absorbByte_keeps_j_k_w g (Bool.eq_false_iff.2 hno)
      exact h hw
    | absorbStop =>
      refine .inr ⟨_, rfl, by_contra fun hno => ?_⟩
      obtain ⟨-, -, hw⟩ := absorbMarker_keeps_j_k_w g (Bool.eq_false_iff.2 hno)
      exact h hw
    | squeeze => exact .inr ⟨_, rfl, by_contra fun hno => h (squeezeByte_keeps_w g (Bool.eq_false_iff.2 hno))⟩

/-- Only a word that selects a command writes the cipher state. -/
theorem transact_writes {g : Params} {c : Cipher} {w : Word} (h : (transact g c w).1 ≠ c) : ∃ i, decode w = .run i := by
  cases hdecode : decode w with
  | error e => exact absurd (transact_cipher_of_error g c hdecode) h
  | run i => exact ⟨i, rfl⟩

/-- Settles O47: by `StepCase.cipher_cases` a register changes only where the word in CMD runs, and then by the rule for that
register; CMD by `StepCase.cmd_eq`. -/
theorem registersAreWrittenByTheirCommandsOnly : Obligations.RegistersAreWrittenByTheirCommandsOnly := by
  unfold Obligations.RegistersAreWrittenByTheirCommandsOnly
  intro s t hrst hctl hstep
  have hcase := step_cases hstep
  have hcmd : t.cmd ≠ s.cmd → s.ctl = .idle ∧ (nextPins s).cmdValid = true :=
    fun hne => by_contra fun hno => hne (hcase.cmd_eq hrst hno)
  rcases hcase.cipher_cases hctl with hkept | ⟨hbusy, hwait, hran⟩
  · rw [hkept]
    exact ⟨absurd rfl, fun h => h.elim (absurd rfl) (absurd rfl), fun h => h.elim (absurd rfl) (absurd rfl), absurd rfl, hcmd⟩
  · rw [hran]
    exact ⟨fun h => ⟨hbusy, hwait, transact_writes h⟩, transact_writes_i_z, transact_writes_j_k, transact_writes_w, hcmd⟩

/-- The response to any word but SQUEEZE's does not depend on the cipher state. -/
theorem transact_response_of_ne_squeeze (g : Params) (c d : Cipher) {w : Word} (h : decode w ≠ .run .squeeze) :
    (transact g c w).2 = (transact g d w).2 := by
  unfold transact
  cases hdecode : decode w with
  | error e => rfl
  | run i =>
    cases i with
    | squeeze => exact absurd hdecode h
    | init | absorb | absorbStop => rfl

/-- Settles O48: the case that a step takes does not depend on the cipher state, and of the cases only the running of a word
writes RSP from it, which `transact_response_of_ne_squeeze` excludes. -/
theorem onlySqueezeRevealsTheCipher : Obligations.OnlySqueezeRevealsTheCipher := by
  unfold Obligations.OnlySqueezeRevealsTheCipher
  intro s t c hno hstep
  cases step_cases hstep with
  | reset h => exact ⟨_, step_rst h, rfl, rfl, rfl, rfl, rfl⟩
  | wait n h hc hw => exact ⟨_, step_wait h hc hw, rfl, rfl, rfl, rfl, rfl⟩
  | resetEnds h hc hw => exact ⟨_, step_resetEnds h hc hw, rfl, rfl, rfl, rfl, rfl⟩
  | accept h hc hv => exact ⟨_, step_accept h hc hv, rfl, rfl, rfl, rfl, rfl⟩
  | idle h hc hv => exact ⟨_, step_idle h hc hv, rfl, rfl, rfl, rfl, rfl⟩
  | run h hc hw =>
    have hne : decode s.cmd ≠ .run .squeeze := fun hsqueeze => hno ⟨hc, hw, hsqueeze⟩
    have hran := (step_run (s := { s with cipher := c }) h hc hw).trans (runCommand_eq _)
    exact ⟨_, hran, transact_response_of_ne_squeeze _ _ _ hne, rfl, rfl, rfl, rfl⟩
  | deliver h hc hv => exact ⟨_, step_deliver h hc hv, rfl, rfl, rfl, rfl, rfl⟩
  | hold h hc hv => exact ⟨_, step_hold h hc hv, rfl, rfl, rfl, rfl, rfl⟩

end Sys2Proof.Machine
end

section
/-! ### The assembler and the key setup (spec/30_encoding.md R78, R79; spec/42_absorb.md R126) -/

namespace Sys2Proof.Machine

theorem assembleLine_of_wellFormed {l : AsmLine} (h : l.wellFormed = true) :
    assembleLine l = some ((expandLine l).map encode) := if_pos h

theorem assembleLine_of_ill_formed {l : AsmLine} (h : l.wellFormed = false) : assembleLine l = none :=
  if_neg (Bool.eq_false_iff.1 h)

theorem map_decode_encode (is : List Instr) : (is.map encode).map decode = is.map .run := by
  rw [List.map_map]
  exact List.map_congr_left fun i _ => decode_encode i

/-- Settles O42: a well-formed line is the words of its commands, which decode back by `decode_encode`. -/
theorem assembledWordsDecodeToTheLine : Obligations.AssembledWordsDecodeToTheLine := by
  unfold Obligations.AssembledWordsDecodeToTheLine
  refine ⟨fun l h => ⟨_, assembleLine_of_wellFormed h, map_decode_encode _⟩, fun l h => assembleLine_of_ill_formed h,
    fun n hn => assembleLine_of_ill_formed (decide_eq_false (Nat.not_lt.2 hn))⟩

/-- Settles O41: the samples, each evaluated by the assembler. -/
theorem assembledTextIsTheWords : Obligations.AssembledTextIsTheWords := by
  unfold Obligations.AssembledTextIsTheWords
  decide

/-- A key or IV field stands for ABSORBs alone. -/
theorem fieldOf_eq_absorbs (f : AsmField) : ∃ bs : List Byte, fieldOf f = bs.map .absorb := by
  cases f with
  | bytes ls => exact ⟨ls.map literalByte, by rw [List.map_map]; rfl⟩
  | text cs => exact ⟨(cs.map .character).map literalByte, by rw [List.map_map]; rfl⟩

/-- The ABSORBs of a key come before its stop marker. -/
theorem keyThenIv_absorbs (bs : List Byte) (is : List Instr) : keyThenIv (bs.map .absorb ++ is) = keyThenIv is := by
  induction bs with
  | nil => rfl
  | cons b bs ih => exact ih

/-- The ABSORBs of an IV come before its keystream. -/
theorem ivThenStream_absorbs (bs : List Byte) (is : List Instr) : ivThenStream (bs.map .absorb ++ is) = ivThenStream is := by
  induction bs with
  | nil => rfl
  | cons b bs ih => exact ih

theorem ivThenStream_squeezes (n : Nat) : ivThenStream (List.replicate n .squeeze) = true := by
  cases n with
  | zero => rfl
  | succ n => simp [List.replicate_succ, ivThenStream]

/-- KEYSETUP and SQUEEZEs absorb the key, the stop marker and the IV before any output. -/
theorem keyThenIv_keySetup (key iv : AsmField) (n : Nat) :
    keyThenIv (expandLine (.keySetup key iv) ++ expandLine (.squeezeN n)) = true := by
  obtain ⟨ks, hkey⟩ := fieldOf_eq_absorbs key
  obtain ⟨vs, hiv⟩ := fieldOf_eq_absorbs iv
  rw [expandLine, expandLine, hkey, hiv, List.append_assoc, List.append_assoc, keyThenIv_absorbs]
  exact (ivThenStream_absorbs vs _).trans (ivThenStream_squeezes n)

/-- A session that does not begin with INIT meets the contract only after a reset. -/
theorem followsContract_of_keyThenIv {fromReset : Bool} {is : List Instr} (h : keyThenIv is = true) :
    followsContract fromReset is = fromReset := by
  cases is with
  | nil => exact absurd h nofun
  | cons i is =>
    cases i with
    | init => exact absurd h nofun
    | absorb | absorbStop | squeeze => simp only [followsContract, h, Bool.and_true]

/-- Settles O43: KEYSETUP and SQUEEZEs are a key, a stop marker and an IV in order, by `keyThenIv_keySetup`; what comes before
them decides. -/
theorem keySetupFollowsTheContract : Obligations.KeySetupFollowsTheContract := by
  unfold Obligations.KeySetupFollowsTheContract
  intro key iv n
  have hsetup := keyThenIv_keySetup key iv n
  refine ⟨fun fromReset => ?_, followsContract_of_keyThenIv hsetup, followsContract_of_keyThenIv hsetup⟩
  rw [List.append_assoc]
  exact hsetup

end Sys2Proof.Machine
end
